-- ==== Sys2Proof/Word.lean ====
section
/-! DEFINITION. The words of HUFCORE: a register value or host data word is 32 bits, a symbol or OUT_MEM
byte is 8 bits, and a bit sequence (stream, header, payload, code) is a list of bits in stream order. -/

namespace Sys2Proof

/-- A 32-bit register value or host data word (00_scope.md R15, 20_memory.md R80). -/
abbrev Word := BitVec 32

/-- A symbol, or one byte of OUT_MEM (00_scope.md R11, 10_state.md R49). -/
abbrev Byte := BitVec 8

/-- A finite bit sequence in stream order; `true` is the bit 1 (00_scope.md R16). -/
abbrev Bits := List Bool

end Sys2Proof
end

