-- ==== Sys2Proof/Syntax.lean ====
section
/-! DEFINITION. The instructions of HUFCORE: the command words a host writes to CMD
(30_encoding.md R110 to R114; opcode_table.json). -/

namespace Sys2Proof

/-- One constructor per row of opcode_table.json (30_encoding.md R111). -/
inductive Instr where
  /-- NOP, 48_commands.md R355. -/
  | nop
  /-- ENCODE, 48_commands.md R356. -/
  | encode
  /-- DECODE, 48_commands.md R357. -/
  | decode
  /-- CLEAR, 48_commands.md R358. -/
  | clear
  /-- ILLEGAL, 48_commands.md R359: every other word, with its fields OPC (7:0) and RSVD (31:8). -/
  | illegal (opc : BitVec 8) (rsvd : BitVec 24)
  deriving DecidableEq, Repr

end Sys2Proof
end

