-- ==== Sys2Proof/WellFormed.lean ====
section
/-! DEFINITION. Which instructions are well formed: an ILLEGAL instruction holds the fields of a word that is
none of the four legal ones. -/

namespace Sys2Proof

/-- The fields of a word that is not NOP, ENCODE, DECODE or CLEAR (30_encoding.md R111, R112): a reserved
bit is set, or OPC is at least 0x04. -/
def illegalFields (opc : BitVec 8) (rsvd : BitVec 24) : Bool :=
  rsvd != 0 || decide (4 ≤ opc.toNat)

/-- Well-formedness, per row of the opcode map (30_encoding.md R111). -/
def Instr.wellFormed : Instr → Bool
  | .nop => true
  | .encode => true
  | .decode => true
  | .clear => true
  | .illegal opc rsvd => illegalFields opc rsvd

end Sys2Proof
end

