-- ==== Sys2Proof/Decode.lean ====
section
/-! DEFINITION. Decoding of a command word, total on every 32-bit word (30_encoding.md R112), and the encoder,
from the same fields. -/

namespace Sys2Proof

/-- The OPC field, bits 7:0 of a command word (30_encoding.md R110). -/
def opcField (v : Word) : BitVec 8 := v.extractLsb' 0 8

/-- The RSVD field, bits 31:8 of a command word (30_encoding.md R110). -/
def rsvdField (v : Word) : BitVec 24 := v.extractLsb' 8 24

/-- The command a word stands for (30_encoding.md R111, R112). A word with a reserved bit set, or with an OPC of
0x04 or more, is ILLEGAL and nothing else: no word is refused. -/
def decode (v : Word) : Instr :=
  if rsvdField v = 0 then
    match (opcField v).toNat with
    | 0 => .nop
    | 1 => .encode
    | 2 => .decode
    | 3 => .clear
    | _ => .illegal (opcField v) (rsvdField v)
  else .illegal (opcField v) (rsvdField v)

/-- The word with the given fields (30_encoding.md R110). -/
def wordOfFields (opc : BitVec 8) (rsvd : BitVec 24) : Word := rsvd ++ opc

/-- The command word of an instruction (30_encoding.md R111; opcode_table.json). -/
def encode : Instr → Word
  | .nop => wordOfFields 0x00 0
  | .encode => wordOfFields 0x01 0
  | .decode => wordOfFields 0x02 0
  | .clear => wordOfFields 0x03 0
  | .illegal opc rsvd => wordOfFields opc rsvd

/-- The instruction of a word numbered as opcode_table.json numbers it. HUFCORE has one command length, one
32-bit word (30_encoding.md R114), handed over whole on the host port (20_memory.md R93): it is stored in no
memory and has no byte order. Bits above `nbits` are 0; more than 32 bits is no command word (log 18). -/
def decodeTableWord (nbits w : Nat) : Option Instr :=
  if nbits ≤ 32 then some (decode (BitVec.ofNat 32 (w % 2 ^ nbits))) else none

/-- A row of opcode_table.json: which words it matches (30_encoding.md R112). -/
structure OpcodeRow where
  matchWord : Word
  mask : Word
  deriving DecidableEq, Repr

/-- The four match/mask rows of opcode_table.json for the legal commands, in table order; the fifth row, ILLEGAL,
takes every word that none of them matches (30_encoding.md R112). -/
def opcodeRows : List OpcodeRow :=
  [⟨0x00000000, 0xFFFFFFFF⟩, ⟨0x00000001, 0xFFFFFFFF⟩, ⟨0x00000002, 0xFFFFFFFF⟩, ⟨0x00000003, 0xFFFFFFFF⟩]

/-- Whether a row of the opcode table matches a word. -/
def rowMatches (r : OpcodeRow) (v : Word) : Bool := v &&& r.mask == r.matchWord

end Sys2Proof
end

