-- ==== Sys2Proof/Machine/Errors.lean ====
section
/-! DEFINITION. The errors and the stages HUFCORE reports, and their numbers (60_exceptions.md R401, R402). -/

namespace Sys2Proof.Machine

/-- The ten errors (60_exceptions.md R401; 00_scope.md R21). -/
inductive ErrorName where
  | emptyInput
  | unsupportedSymbol
  | alphabetTooLarge
  | malformedHeader
  | truncatedStream
  | unexpectedEndOfStream
  | invalidPath
  | outputOverflow
  | inputLength
  | illegalCommand
  deriving DecidableEq, Repr

/-- The six stages (60_exceptions.md R402). -/
inductive Stage where
  | command
  | input
  | header
  | tree
  | payload
  | output
  deriving DecidableEq, Repr

/-- `raise <Error>(stage S, index i)` (60_exceptions.md R420). The index counts for UnsupportedSymbolError only. -/
structure Raise where
  error : ErrorName
  stage : Stage
  index : Nat
  deriving DecidableEq, Repr

/-- CODE of an error (60_exceptions.md R401). -/
def errorNumber : ErrorName → Nat
  | .emptyInput => 1
  | .unsupportedSymbol => 2
  | .alphabetTooLarge => 3
  | .malformedHeader => 4
  | .truncatedStream => 5
  | .unexpectedEndOfStream => 6
  | .invalidPath => 7
  | .outputOverflow => 8
  | .inputLength => 9
  | .illegalCommand => 10

/-- STAGE of a stage (60_exceptions.md R402). -/
def stageNumber : Stage → Nat
  | .command => 1
  | .input => 2
  | .header => 3
  | .tree => 4
  | .payload => 5
  | .output => 6

/-- The value of ERR_CODE for an error: STAGE in bits 11:8, CODE in bits 7:0 (10_state.md R40, 60_exceptions.md
R420). -/
def errCodeWord (e : ErrorName) (st : Stage) : Word :=
  BitVec.ofNat 32 ((stageNumber st <<< 8) ||| errorNumber e)

/-- An error that records no index (60_exceptions.md R401). -/
def raiseAt (e : ErrorName) (st : Stage) : Raise := ⟨e, st, 0⟩

/-- What a successful engine step hands to `done(...)`: the OUT_MEM bytes from index 0, and the result registers
other than OUT_LEN, which is the number of bytes (48_commands.md R356, R357, R360). -/
structure Success where
  out : List Byte
  pad : Nat
  count : Nat
  depth : Nat
  hdrBits : Nat
  payloadBits : Nat
  deriving DecidableEq, Repr

/-- The result of an engine step or of one of its stages: a value, or the first error met (60_exceptions.md R405). -/
abbrev Result (α : Type) := Except Raise α

end Sys2Proof.Machine
end

