-- ==== Sys2Proof/Config.lean ====
section
/-! DEFINITION. What one build of HUFCORE fixes (its three parameters), and the free values of the spec:
constants without a body, so that no proof can use what they are. -/

namespace Sys2Proof

/-- The three build-time parameters (00_scope.md R10; 92_eei_decisions.md D3). A machine carries its own
in `State.params`; no step changes them (log 6). -/
structure Config.Params where
  /-- MAX_IN: entries of IN_MEM, the largest legal IN_LEN. -/
  maxIn : Nat
  /-- MAX_OUT: bytes of OUT_MEM, the largest output. -/
  maxOut : Nat
  /-- CHAR_WIDTH: bits of one IN_MEM entry. -/
  charWidth : Nat
  deriving DecidableEq, Repr

/-- The default parameters (00_scope.md R10). -/
def Config.defaultParams : Config.Params := ⟨65536, 1048576, 32⟩

/-- The legal ranges of the parameters (00_scope.md R10). -/
abbrev Config.Params.Legal (p : Config.Params) : Prop :=
  (1 ≤ p.maxIn ∧ p.maxIn ≤ 2 ^ 24) ∧ (1 ≤ p.maxOut ∧ p.maxOut ≤ 2 ^ 32 - 1) ∧
    (8 ≤ p.charWidth ∧ p.charWidth ≤ 32)

/-- FREE VALUE. `freeInEntry d i` is what draw `d` gives for entry `i` of IN_MEM when nothing has written it
since reset (70_reset_and_hazards.md R450, R452; 93_implementation_defined.md U1, U4; log 3). -/
opaque Config.freeInEntry : Nat → Nat → Word

/-- FREE VALUE. `freeOutByte d i` is what draw `d` gives for byte `i` of OUT_MEM when nothing has written it
since reset, or since the last ENCODE or DECODE that ended in error (70_reset_and_hazards.md R450,
60_exceptions.md R420; 93_implementation_defined.md U1, U2; logs 3 and 4). -/
opaque Config.freeOutByte : Nat → Nat → Byte

/-- FREE VALUE. `freeReadByte d` is what an OutRead made while BUSY = 1 returns, one draw per read
(20_memory.md R86; 93_implementation_defined.md U3; log 5). -/
opaque Config.freeReadByte : Nat → Byte

/-- FREE VALUE. `engineLatency d` is the number of host actions that come between the acceptance of an
operation and its engine step (70_reset_and_hazards.md R462; 93_implementation_defined.md U5; log 2). -/
opaque Config.engineLatency : Nat → Nat

end Sys2Proof
end

