-- ==== Sys2Proof/Machine/State.lean ====
section
/-! DEFINITION. The state of one HUFCORE instance as plain data (10_state.md R31), with the model's own fields that
hold what the host is still going to do and the free values drawn so far, and the state after reset. -/

namespace Sys2Proof.Machine

/-- The two operations of the engine (10_state.md R50). -/
inductive Op where
  | encode
  | decode
  deriving DecidableEq, Repr

/-- The engine's phase, and the accepted operation while it is BUSY (10_state.md R50). -/
inductive Engine where
  | idle
  | busy (op : Op)
  deriving DecidableEq, Repr

/-- The six kinds of transaction on the host port (20_memory.md R80). A register number is 0 to 255; an index is a
32-bit unsigned number. -/
inductive HostTx where
  | regRead (n : BitVec 8)
  | regWrite (n : BitVec 8) (v : Word)
  | inRead (i : Word)
  | inWrite (i : Word) (v : Word)
  | outRead (i : Word)
  | outWrite (i : Word) (v : Word)
  deriving DecidableEq, Repr

/-- What reaches HUFCORE from outside, one item at a time (log 1). -/
inductive HostAction where
  /-- One transaction on the host port. -/
  | tx (t : HostTx)
  /-- `poll REG[n], mask, value`: read register n again and again until (value read AND mask) = value
  (30_encoding.md R131; log 16). -/
  | poll (n : BitVec 8) (mask value : Word)
  /-- `wr IN[i], r` where r is what the last read returned: one half of `copy` (30_encoding.md R131; log 16). -/
  | inWriteReply (i : Word)
  /-- The platform's reset (70_reset_and_hazards.md R450). -/
  | reset
  deriving DecidableEq, Repr

/-- A memory of `w`-bit entries: the entries written so far, at strictly rising indices. An index that is not listed
holds no known value; what a read of it gives is said where memory is read (logs 3 and 7). -/
abbrev Memory (w : Nat) := List (Nat × BitVec w)

/-- The state of one HUFCORE instance (10_state.md R31, R32, R48 to R50), with the model's own fields last. -/
structure State where
  /-- MAX_IN, MAX_OUT and CHAR_WIDTH: what CAP_IN, CAP_OUT and CAP_CHAR read (10_state.md R44; log 6). -/
  params : Config.Params
  /-- STATUS, register 2 (10_state.md R35). -/
  status : Word
  /-- ERR_CODE, register 3 (10_state.md R40). -/
  errCode : Word
  /-- ERR_INDEX, register 4 (10_state.md R41). -/
  errIndex : Word
  /-- IN_LEN, register 5 (10_state.md R42). -/
  inLen : Word
  /-- OUT_LEN, register 6 (10_state.md R43). -/
  outLen : Word
  /-- RES_PAD, register 7 (10_state.md R45). -/
  resPad : Word
  /-- RES_COUNT, register 8 (10_state.md R45). -/
  resCount : Word
  /-- RES_DEPTH, register 9 (10_state.md R45). -/
  resDepth : Word
  /-- RES_HDR_BITS, register 10 (10_state.md R46). -/
  resHdrBits : Word
  /-- RES_PAYLOAD_BITS, register 11 (10_state.md R46). -/
  resPayloadBits : Word
  /-- IN_MEM, indexed by entry (10_state.md R48). -/
  inMem : Memory 32
  /-- OUT_MEM, indexed by byte (10_state.md R49). -/
  outMem : List Host.Cell
  /-- The engine's phase and operation (10_state.md R50). -/
  engine : Engine
  /-- MODEL'S OWN: the number of free draws taken so far (log 3). -/
  draws : Nat
  /-- MODEL'S OWN: the draw that supplies the IN_MEM entries nothing has written since reset (log 3). -/
  inDraw : Nat
  /-- MODEL'S OWN: the draw that supplies the OUT_MEM bytes nothing has written since reset or the last failed
  operation (logs 3 and 4). -/
  outDraw : Nat
  /-- MODEL'S OWN: host actions still to come before the engine step of the running operation (log 2). -/
  engineWait : Nat
  /-- MODEL'S OWN: what the host and the platform are still going to do, in order (log 1). -/
  pending : List HostAction
  /-- MODEL'S OWN: what the port has answered to the host's reads, newest first (log 8). -/
  replies : List Word
  deriving DecidableEq, Repr

/-- Why a step stops with a fault: never. HUFCORE has no undefined behaviour and no operation can hang
(93_implementation_defined.md section 4), and every error of 60_exceptions.md is a next state (log 19). -/
inductive Fault where
  deriving DecidableEq, Repr

/-- Why a step is refused. -/
inductive Refusal where
  /-- Raised by `exec` alone, for an instruction that has no meaning yet; safe: the machine stops. No arm of this
  model raises it. -/
  | notModelled (mnemonic : String)
  deriving DecidableEq, Repr

/-- What a step answers. -/
abbrev StepResult := Host.Outcome State Fault Refusal

/-- The state right after reset, with the default parameters and nothing pending (70_reset_and_hazards.md R450;
10_state.md R32, R57). The memories list nothing: each entry is the free value of draw 0 (log 3). -/
def State.reset : State where
  params := Config.defaultParams
  status := 0
  errCode := 0
  errIndex := 0
  inLen := 0
  outLen := 0
  resPad := 0
  resCount := 0
  resDepth := 0
  resHdrBits := 0
  resPayloadBits := 0
  inMem := []
  outMem := []
  engine := .idle
  draws := 1
  inDraw := 0
  outDraw := 0
  engineWait := 0
  pending := []
  replies := []

end Sys2Proof.Machine
end

