-- ==== Sys2Proof/Machine/Flags.lean ====
section
/-! DEFINITION. The fields of STATUS, the only flags HUFCORE has (10_state.md R35 to R39, R52). -/

namespace Sys2Proof.Machine

/-- `v[i] <- b`: one bit of a register written, the others kept (00_scope.md R15). -/
def withBit (v : Word) (i : Nat) (b : Bool) : Word :=
  if b then v ||| (1#32 <<< i) else v &&& ~~~(1#32 <<< i)

/-- STATUS.BUSY, bit 0 (10_state.md R36). -/
def State.busy (s : State) : Bool := s.status.getLsbD 0

/-- STATUS.DONE, bit 1 (10_state.md R37). -/
def State.done (s : State) : Bool := s.status.getLsbD 1

/-- STATUS.ERR, bit 2 (10_state.md R38). -/
def State.err (s : State) : Bool := s.status.getLsbD 2

/-- STATUS.DROP, bit 3 (10_state.md R39). -/
def State.drop (s : State) : Bool := s.status.getLsbD 3

/-- STATUS at acceptance: BUSY set, DONE and ERR cleared, DROP kept (48_commands.md R351). -/
def statusAccepted (v : Word) : Word := withBit (withBit (withBit v 0 true) 1 false) 2 false

/-- STATUS at a successful end: BUSY and ERR cleared, DONE set, DROP kept (48_commands.md R360). -/
def statusSucceeded (v : Word) : Word := withBit (withBit (withBit v 0 false) 1 true) 2 false

/-- STATUS at an error: BUSY cleared, DONE and ERR set, DROP kept (60_exceptions.md R420). -/
def statusFailed (v : Word) : Word := withBit (withBit (withBit v 0 false) 1 true) 2 true

/-- STATUS at an illegal word: DONE and ERR set, BUSY and DROP kept (48_commands.md R359). -/
def statusIllegal (v : Word) : Word := withBit (withBit v 1 true) 2 true

/-- STATUS at a dropped write: DROP set (10_state.md R39). -/
def statusDropped (v : Word) : Word := withBit v 3 true

end Sys2Proof.Machine
end

