-- ==== Sys2Proof/Machine/Ops.lean ====
section
/-! DEFINITION. The named operations over memory and registers: reading and writing IN_MEM and OUT_MEM, accepting,
ending and failing an operation, dropping a write, and reset. `raiseError` is the one way an operation fails
(60_exceptions.md R420); there is no return from an error (R423). -/

namespace Sys2Proof.Machine

/-! ### Memory -/

/-- The value written at an index, `none` where nothing has been written (log 3). -/
def Memory.cell? {w : Nat} : Memory w → Nat → Option (BitVec w)
  | [], _ => none
  | (a, x) :: m, i => if a = i then some x else Memory.cell? m i

/-- One entry written, at its place in rising order. -/
def Memory.write {w : Nat} : Memory w → Nat → BitVec w → Memory w
  | [], i, v => [(i, v)]
  | (a, x) :: m, i, v =>
    if i < a then (i, v) :: (a, x) :: m
    else if i = a then (i, v) :: m
    else (a, x) :: Memory.write m i v

/-- Values written to successive indices from `i`. -/
def Memory.writeFrom {w : Nat} : Memory w → Nat → List (BitVec w) → Memory w
  | m, _, [] => m
  | m, i, v :: vs => Memory.writeFrom (Memory.write m i v) (i + 1) vs

/-- The indices rise strictly from at least `lo` and stay below `bound`. -/
def Memory.wfFrom {w : Nat} (bound : Nat) : Nat → Memory w → Bool
  | _, [] => true
  | lo, (a, _) :: m => decide (lo ≤ a) && decide (a < bound) && Memory.wfFrom bound (a + 1) m

/-- The canonical form of a memory with `bound` entries: strictly rising indices below `bound`. An unlisted index
holds no known value, so no listed entry can equal what it reads as (log 3). -/
def Memory.wf {w : Nat} (bound : Nat) (m : Memory w) : Bool := Memory.wfFrom bound 0 m

/-- `v[CHAR_WIDTH-1:0]`, the bits one IN_MEM entry keeps (20_memory.md R85). -/
def charBits (p : Config.Params) (v : Word) : Word := v &&& BitVec.ofNat 32 (2 ^ p.charWidth - 1)

/-- `IN_MEM[i]`: the entry written, or the free value of the draw made at reset (20_memory.md R87, R89;
70_reset_and_hazards.md R450, R456; log 3). -/
def State.inEntry (s : State) (i : Nat) : Word :=
  (Memory.cell? s.inMem i).getD (charBits s.params (Config.freeInEntry s.inDraw i))

/-- `OUT_MEM[i]`: the byte written, or the free value of the draw made at reset or at the last error (20_memory.md
R86; 60_exceptions.md R420; logs 3 and 4). -/
def State.outByte (s : State) (i : Nat) : Byte :=
  (Memory.cell? s.outMem i).getD (Config.freeOutByte s.outDraw i)

/-! ### The registers an operation writes -/

/-- ERR_CODE, ERR_INDEX, OUT_LEN and every RES_* register cleared (48_commands.md R351, R358). -/
def clearReport (s : State) : State :=
  { s with
    errCode := 0
    errIndex := 0
    outLen := 0
    resPad := 0
    resCount := 0
    resDepth := 0
    resHdrBits := 0
    resPayloadBits := 0 }

/-- Acceptance of ENCODE or DECODE (48_commands.md R351). The number of host actions before the engine step is drawn
here (70_reset_and_hazards.md R462; log 2). -/
def accept (op : Op) (s : State) : State :=
  { clearReport s with
    status := statusAccepted s.status
    engine := .busy op
    engineWait := Config.engineLatency s.draws
    draws := s.draws + 1 }

/-- `done(...)`, the successful end of an operation, with the OUT_MEM writes of the step (48_commands.md R360;
10_state.md R49). ERR_CODE and ERR_INDEX keep the 0 of acceptance (log 12). -/
def finish (r : Success) (s : State) : State :=
  { s with
    status := statusSucceeded s.status
    outLen := BitVec.ofNat 32 r.out.length
    resPad := BitVec.ofNat 32 r.pad
    resCount := BitVec.ofNat 32 r.count
    resDepth := BitVec.ofNat 32 r.depth
    resHdrBits := BitVec.ofNat 32 r.hdrBits
    resPayloadBits := BitVec.ofNat 32 r.payloadBits
    outMem := Memory.writeFrom s.outMem 0 r.out
    engine := .idle
    engineWait := 0 }

/-- ERR_INDEX of an error (60_exceptions.md R420; 10_state.md R41). -/
def errIndexWord (x : Raise) : Word :=
  if x.error = .unsupportedSymbol then BitVec.ofNat 32 x.index else 0

/-- `raise <Error>(stage, index)`, the end of an operation by an error (60_exceptions.md R420). Every OUT_MEM byte
becomes a free value of a new draw (log 4). -/
def raiseError (x : Raise) (s : State) : State :=
  { clearReport s with
    status := statusFailed s.status
    errCode := errCodeWord x.error x.stage
    errIndex := errIndexWord x
    outMem := []
    outDraw := s.draws
    draws := s.draws + 1
    engine := .idle
    engineWait := 0 }

/-- The effect of an illegal command word: the engine does not run and the memories are kept (48_commands.md R359). -/
def rejectIllegal (s : State) : State :=
  { clearReport s with
    status := statusIllegal s.status
    errCode := errCodeWord .illegalCommand .command }

/-- The effect of CLEAR (48_commands.md R358). -/
def clearAll (s : State) : State := { clearReport s with status := 0 }

/-- A write dropped because STATUS.BUSY = 1 (10_state.md R39; 20_memory.md R83, R85). -/
def dropWrite (s : State) : State := { s with status := statusDropped s.status }

/-- A command word issued: its effect if STATUS.BUSY = 0, otherwise the write is dropped (48_commands.md R350;
20_memory.md R83; log 11). -/
def issue (effect : State → State) (s : State) : StepResult :=
  .next (if s.busy then dropWrite s else effect s)

/-- RESET (70_reset_and_hazards.md R450, R451): one indivisible transition that aborts a running operation. Both
memories become free values of a new draw; what the host is still going to do and what it has read are not the
machine's and stay (log 13). -/
def resetMachine (s : State) : State :=
  { clearReport s with
    status := 0
    inLen := 0
    inMem := []
    outMem := []
    inDraw := s.draws
    outDraw := s.draws
    draws := s.draws + 1
    engine := .idle
    engineWait := 0 }

end Sys2Proof.Machine
end

