-- ==== Sys2Proof/Machine/Commands.lean ====
section
/-! DEFINITION. The meaning of each command word at its write to CMD (48_commands.md R350 to R359). A word written
while STATUS.BUSY = 1 is dropped, whatever it is (20_memory.md R83). -/

namespace Sys2Proof.Machine

/-- NOP: no state changes (48_commands.md R355). -/
def execNop (s : State) : StepResult := issue (fun t => t) s

/-- ENCODE: accepted here; the engine step follows (48_commands.md R351, R356). -/
def execEncode (s : State) : StepResult := issue (accept .encode) s

/-- DECODE: accepted here; the engine step follows (48_commands.md R351, R357). -/
def execDecode (s : State) : StepResult := issue (accept .decode) s

/-- CLEAR (48_commands.md R358). -/
def execClear (s : State) : StepResult := issue clearAll s

/-- ILLEGAL: IllegalCommandError is reported, whichever the illegal word is (48_commands.md R359). -/
def execIllegal (_opc : BitVec 8) (_rsvd : BitVec 24) (s : State) : StepResult := issue rejectIllegal s

end Sys2Proof.Machine
end

