-- ==== Sys2Proof/Machine/Frequency.lean ====
section
/-! DEFINITION. Stage FREQ of ENCODE: input validation and the ordered frequency table
(41_frequency_analyzer.md R200 to R209). -/

namespace Sys2Proof.Machine

/-- A character is one byte exactly when its value is at most 255 (41_frequency_analyzer.md R203). -/
def representable (ch : Word) : Bool := decide (ch.toNat ≤ 255)

/-- The symbol of a representable character (41_frequency_analyzer.md R203). -/
def symbolOf (ch : Word) : Byte := BitVec.ofNat 8 ch.toNat

/-- The smallest index, counted from `i`, of a character that is not one byte (41_frequency_analyzer.md R202). -/
def firstUnsupported : List Word → Nat → Option Nat
  | [], _ => none
  | ch :: rest, i => if representable ch then firstUnsupported rest (i + 1) else some i

/-- The frequency table: every symbol that occurs, once, in ascending order, with its count
(41_frequency_analyzer.md R205, R206). -/
def freqTable (syms : List Byte) : List (Byte × Nat) :=
  (List.range 256).filterMap fun v =>
    let s : Byte := BitVec.ofNat 8 v
    if 1 ≤ syms.count s then some (s, syms.count s) else none

/-- FREQ: the three checks in their order, then the table (41_frequency_analyzer.md R200, R204). -/
def freq (chars : List Word) : Result (List (Byte × Nat)) :=
  if chars = [] then .error (raiseAt .emptyInput .input)
  else
    match firstUnsupported chars 0 with
    | some i => .error ⟨.unsupportedSymbol, .input, i⟩
    | none =>
      let table := freqTable (chars.map symbolOf)
      if 128 ≤ table.length then .error (raiseAt .alphabetTooLarge .input) else .ok table

end Sys2Proof.Machine
end

