-- ==== Sys2Proof/Machine/Bits.lean ====
section
/-! DEFINITION. The primitives on bit sequences (00_scope.md R16), and the grouping of a bit sequence into bytes
(20_memory.md R91, R92). -/

namespace Sys2Proof.Machine

/-- `bits_n(v)`: the low n bits of v, most significant first (00_scope.md R16). -/
def bitsOf : Nat → Nat → Bits
  | 0, _ => []
  | n + 1, v => v.testBit n :: bitsOf n v

/-- `uint(s)`: the unsigned value of s, most significant bit first; 0 for the empty sequence (00_scope.md R16). -/
def uintOf (s : Bits) : Nat := s.foldl (fun acc b => 2 * acc + b.toNat) 0

/-- `zeros(n)` (00_scope.md R16). -/
def zeros (n : Nat) : Bits := List.replicate n false

/-- `ones(n)` (00_scope.md R16). -/
def ones (n : Nat) : Bits := List.replicate n true

/-- `s[a..b)`: the bits at indices a to b - 1 (00_scope.md R16). -/
def slice (s : Bits) (a b : Nat) : Bits := (s.drop a).take (b - a)

/-- The eight bits of a byte, most significant first (20_memory.md R91). -/
def bitsOfByte (b : Byte) : Bits := bitsOf 8 b.toNat

/-- The byte a group of bits stands for (20_memory.md R91). -/
def byteOfBits (s : Bits) : Byte := BitVec.ofNat 8 (uintOf s)

end Sys2Proof.Machine
end

