-- ==== Sys2Proof/Machine/HeaderCodec.lean ====
section
/-! DEFINITION. Stages HDR_SER of ENCODE and HDR_PARSE of DECODE (44_header_codec.md R260 to R277); the layout is
30_encoding.md R121. -/

namespace Sys2Proof.Machine

/-- One header entry: the code padded with zeros to `depth` bits, then the symbol (44_header_codec.md R263). -/
def headerEntry (depth : Nat) (p : Byte × Bits) : Bits :=
  p.2 ++ zeros (depth - p.2.length) ++ bitsOfByte p.1

/-- HDR_SER: the header bits after the padding-count field (44_header_codec.md R260). -/
def serializeHeader (table : List (Byte × Bits)) (depth : Nat) : Bits :=
  bitsOf 7 table.length ++ ones depth ++ table.flatMap (headerEntry depth)

/-- What HDR_PARSE returns: the fields, the entries in header order, the cursor c at the first payload bit and the
end e of the data bits (44_header_codec.md R266). -/
structure Header where
  pad : Nat
  count : Nat
  depth : Nat
  entries : List (Bits × Byte)
  c : Nat
  e : Nat
  deriving DecidableEq, Repr

/-- The number of 1 bits before the first 0 bit, or before the end (44_header_codec.md R272). -/
def markerLength : Bits → Nat
  | [] => 0
  | b :: rest => if b then markerLength rest + 1 else 0

/-- Step 4: `n` entries from cursor c, each checked against the end e before it is read; the entries and the cursor
after them (44_header_codec.md R273). -/
def parseEntries (bits : Bits) (depth e : Nat) : Nat → Nat → Result (List (Bits × Byte) × Nat)
  | 0, c => .ok ([], c)
  | n + 1, c =>
    if e - c < depth + 8 then .error (raiseAt .truncatedStream .header)
    else
      match parseEntries bits depth e n (c + depth + 8) with
      | .error r => .error r
      | .ok (rest, c') =>
        .ok ((slice bits c (c + depth), byteOfBits (slice bits (c + depth) (c + depth + 8))) :: rest, c')

/-- Steps 2 to 4, with the padding already removed: e is the end of the data bits (44_header_codec.md R271 to R274). -/
def parseFields (bits : Bits) (pad e : Nat) : Result Header :=
  if e - 3 < 7 then .error (raiseAt .truncatedStream .header)
  else
    let count := uintOf (slice bits 3 10)
    let depth := markerLength (slice bits 10 e)
    if 10 + depth = e then .error (raiseAt .malformedHeader .header)
    else if depth = 0 ∨ 127 < depth then .error (raiseAt .malformedHeader .header)
    else
      match parseEntries bits depth e count (10 + depth) with
      | .error r => .error r
      | .ok (entries, c) => .ok ⟨pad, count, depth, entries, c, e⟩

/-- HDR_PARSE (44_header_codec.md R266, R269, R270). -/
def parseHeader (bits : Bits) : Result Header :=
  if bits.length < 3 then .error (raiseAt .truncatedStream .header)
  else
    let pad := uintOf (slice bits 0 3)
    if bits.length - 3 < pad then .error (raiseAt .truncatedStream .header)
    else parseFields bits pad (bits.length - pad)

end Sys2Proof.Machine
end

