-- ==== Sys2Proof/Machine/Operands.lean ====
section
/-! DEFINITION. The operand forms: a register number of the host port (10_state.md R32), and the input an operation
takes from IN_LEN and IN_MEM (10_state.md R42, R48). -/

namespace Sys2Proof.Machine

/-- The registers by name (10_state.md R32). -/
inductive RegName where
  | id
  | cmd
  | status
  | errCode
  | errIndex
  | inLen
  | outLen
  | resPad
  | resCount
  | resDepth
  | resHdrBits
  | resPayloadBits
  | capIn
  | capOut
  | capChar
  | reserved
  deriving DecidableEq, Repr

/-- The register a number stands for; 15 to 255 are reserved (10_state.md R32, R47). -/
def regName (n : BitVec 8) : RegName :=
  match n.toNat with
  | 0 => .id
  | 1 => .cmd
  | 2 => .status
  | 3 => .errCode
  | 4 => .errIndex
  | 5 => .inLen
  | 6 => .outLen
  | 7 => .resPad
  | 8 => .resCount
  | 9 => .resDepth
  | 10 => .resHdrBits
  | 11 => .resPayloadBits
  | 12 => .capIn
  | 13 => .capOut
  | 14 => .capChar
  | _ => .reserved

/-- The identification constant, the ASCII bytes "HUFF" (10_state.md R33). -/
def idValue : Word := 0x48554646

/-- The value of a register (20_memory.md R82; 10_state.md R32 to R47): CMD and the reserved numbers read 0, ID and
CAP_* are constants. -/
def readReg (s : State) : RegName → Word
  | .id => idValue
  | .cmd => 0
  | .status => s.status
  | .errCode => s.errCode
  | .errIndex => s.errIndex
  | .inLen => s.inLen
  | .outLen => s.outLen
  | .resPad => s.resPad
  | .resCount => s.resCount
  | .resDepth => s.resDepth
  | .resHdrBits => s.resHdrBits
  | .resPayloadBits => s.resPayloadBits
  | .capIn => BitVec.ofNat 32 s.params.maxIn
  | .capOut => BitVec.ofNat 32 s.params.maxOut
  | .capChar => BitVec.ofNat 32 s.params.charWidth
  | .reserved => 0

/-- The characters of ENCODE, `IN_MEM[0 .. IN_LEN-1]` (48_commands.md R356). -/
def inputChars (s : State) : List Word := (List.range s.inLen.toNat).map s.inEntry

/-- The bytes of DECODE, bits 7:0 of `IN_MEM[0 .. IN_LEN-1]` (48_commands.md R357; 46_bitstream_packer.md R315). -/
def inputBytes (s : State) : List Byte := (inputChars s).map (BitVec.extractLsb' 0 8)

end Sys2Proof.Machine
end

