-- ==== Sys2Proof/Machine/Packer.lean ====
section
/-! DEFINITION. Stages PACK of ENCODE and UNPACK of DECODE (46_bitstream_packer.md R310 to R316). -/

namespace Sys2Proof.Machine

/-- The padding count for a stream of `len` bits, its own 3-bit field included (46_bitstream_packer.md R311). -/
def paddingBits (len : Nat) : Nat := (8 - len % 8) % 8

/-- The length L of the stream before padding (46_bitstream_packer.md R311). -/
def unpaddedLength (hdr pay : Bits) : Nat := 3 + hdr.length + pay.length

/-- The whole stream: padding count, header, payload, padding (46_bitstream_packer.md R312). -/
def streamBits (hdr pay : Bits) : Bits :=
  let pad := paddingBits (unpaddedLength hdr pay)
  bitsOf 3 pad ++ hdr ++ pay ++ zeros pad

/-- The first `n` bytes of a stream: byte k is the bits 8k to 8k + 7, most significant first
(46_bitstream_packer.md R313). -/
def bytesOfBits : Nat → Bits → List Byte
  | 0, _ => []
  | n + 1, s => byteOfBits (s.take 8) :: bytesOfBits n (s.drop 8)

/-- PACK: the padding count and the bytes, or OutputOverflowError if they exceed MAX_OUT
(46_bitstream_packer.md R310, R314). -/
def pack (maxOut : Nat) (hdr pay : Bits) : Result (Nat × List Byte) :=
  let len := unpaddedLength hdr pay
  let pad := paddingBits len
  let nbytes := (len + pad) / 8
  if maxOut < nbytes then .error (raiseAt .outputOverflow .output)
  else .ok (pad, bytesOfBits nbytes (streamBits hdr pay))

/-- UNPACK: the bits of the input bytes (46_bitstream_packer.md R315). -/
def unpack (bytes : List Byte) : Bits := bytes.flatMap bitsOfByte

end Sys2Proof.Machine
end

