-- ==== Sys2Proof/Machine/Tree.lean ====
section
/-! DEFINITION. The trees of both operations (00_scope.md R18). -/

namespace Sys2Proof.Machine

/-- A node: `Leaf(s)`, or `Internal(l, r)` whose children are each a node or `none`; `absent` is that `none`
(00_scope.md R18; log 9). -/
inductive Tree where
  | absent
  | leaf (s : Byte)
  | internal (l r : Tree)
  deriving DecidableEq, Repr

/-- The left child of a node, `absent` where there is none. -/
def leftChild : Tree → Tree
  | .absent => .absent
  | .leaf _ => .absent
  | .internal l _ => l

/-- The right child of a node, `absent` where there is none. -/
def rightChild : Tree → Tree
  | .absent => .absent
  | .leaf _ => .absent
  | .internal _ r => r

/-- The child a bit selects: 0 the left one, 1 the right one (00_scope.md R18). -/
def childAt (t : Tree) (b : Bool) : Tree := if b then rightChild t else leftChild t

end Sys2Proof.Machine
end

