-- ==== Sys2Proof/Machine/CodeTable.lean ====
section
/-! DEFINITION. Stage CODES of ENCODE: the ordered code table and depth (43_code_table.md R240 to R249). -/

namespace Sys2Proof.Machine

/-- VISIT: the leaves of a tree in pre-order, each with its path (43_code_table.md R240 to R242). -/
def visit : Tree → Bits → List (Byte × Bits)
  | .absent, _ => []
  | .leaf s, path => [(s, path)]
  | .internal l r, path => visit l (path ++ [false]) ++ visit r (path ++ [true])

/-- The code table: the visit, or the one pair (s, '0') for a single leaf (43_code_table.md R240, R243). -/
def codeTable : Tree → List (Byte × Bits)
  | .absent => []
  | .leaf s => [(s, [false])]
  | .internal l r => visit (.internal l r) []

/-- The length of the longest code (43_code_table.md R244). -/
def codeDepth : List (Byte × Bits) → Nat
  | [] => 0
  | (_, c) :: rest => max c.length (codeDepth rest)

/-- `table.lookup(s)` (00_scope.md R19, 43_code_table.md R249); every symbol of the input has a pair, so the empty
sequence is never used (log 10). -/
def codeOf (table : List (Byte × Bits)) (s : Byte) : Bits := (table.lookup s).getD []

end Sys2Proof.Machine
end

