-- ==== Sys2Proof/Machine/Payload.lean ====
section
/-! DEFINITION. Stages PAYENC of ENCODE and WALK of DECODE (47_payload_codec.md R330 to R342). -/

namespace Sys2Proof.Machine

/-- PAYENC: the codes of the symbols, in input order (47_payload_codec.md R330). -/
def encodePayload (table : List (Byte × Bits)) (syms : List Byte) : Bits := syms.flatMap (codeOf table)

/-- WALK from a node with k symbols emitted: the symbols still to come, or the first error met (47_payload_codec.md
R334 to R338). A proper subtree is never equal to the whole tree, so `node = root` is the spec's test on node
identity (log 9). -/
def walk (root : Tree) (maxOut : Nat) : Bits → Tree → Nat → Result (List Byte)
  | [], node, _ => if node = root then .ok [] else .error (raiseAt .unexpectedEndOfStream .payload)
  | b :: rest, node, k =>
    match childAt node b with
    | .absent => .error (raiseAt .invalidPath .payload)
    | .leaf s =>
      if k = maxOut then .error (raiseAt .outputOverflow .output)
      else
        match walk root maxOut rest root (k + 1) with
        | .error r => .error r
        | .ok out => .ok (s :: out)
    | .internal l r => walk root maxOut rest (.internal l r) k

end Sys2Proof.Machine
end

