-- ==== Sys2Proof/Machine/Reconstructor.lean ====
section
/-! DEFINITION. Stage RECON of DECODE: the uniform-depth tree from the header entries, and its collapse
(45_tree_reconstructor.md R290 to R302). -/

namespace Sys2Proof.Machine

/-- The walk of one entry from a node: Internal nodes are created on demand, and the last bit's child becomes the
Leaf, replacing what stood there (45_tree_reconstructor.md R291 to R293). All codes have the same length, so the
walk never passes a Leaf (R292; log 10). -/
def insertCode : Tree → Bits → Byte → Tree
  | _, [], s => .leaf s
  | t, b :: rest, s =>
    if b then .internal (leftChild t) (insertCode (rightChild t) rest s)
    else .internal (insertCode (leftChild t) rest s) (rightChild t)

/-- The uniform-depth tree: the entries inserted in header order into a root with no children
(45_tree_reconstructor.md R291, R292). -/
def uniformTree (entries : List (Bits × Byte)) : Tree :=
  entries.foldl (fun t p => insertCode t p.1 p.2) (.internal .absent .absent)

/-- DESCEND: the symbol found by following left children; an Internal node with no left child is InvalidPathError,
stage TREE (45_tree_reconstructor.md R296). -/
def descend : Tree → Result Byte
  | .absent => .error (raiseAt .invalidPath .tree)
  | .leaf s => .ok s
  | .internal l _ => descend l

/-- COLLAPSE (45_tree_reconstructor.md R290, R294 to R299): a node with a left child only, other than the root,
becomes the Leaf at the end of its left chain; every other Internal node is kept and its children are collapsed, left
first. -/
def collapse : Tree → Bool → Result Tree
  | .absent, _ => .ok .absent
  | .leaf s, _ => .ok (.leaf s)
  | .internal l r, isRoot =>
    if isRoot = false ∧ l ≠ .absent ∧ r = .absent then
      match descend l with
      | .error x => .error x
      | .ok s => .ok (.leaf s)
    else
      match collapse l false with
      | .error x => .error x
      | .ok l' =>
        match collapse r false with
        | .error x => .error x
        | .ok r' => .ok (.internal l' r')

/-- RECON (45_tree_reconstructor.md R290). -/
def reconstruct (entries : List (Bits × Byte)) : Result Tree := collapse (uniformTree entries) true

end Sys2Proof.Machine
end

