-- ==== Sys2Proof/Machine/TreeBuilder.lean ====
section
/-! DEFINITION. Stage BUILD of ENCODE: the prefix tree from a min-priority queue with a pinned tie-break
(42_tree_builder.md R220 to R230). -/

namespace Sys2Proof.Machine

/-- A queue entry (node, weight, seq) (42_tree_builder.md R222). -/
structure QEntry where
  node : Tree
  weight : Nat
  seq : Nat
  deriving DecidableEq, Repr

/-- Whether `a` is popped before `b`: smaller weight, and among equal weights smaller seq (42_tree_builder.md R223). -/
def popsBefore (a b : QEntry) : Bool :=
  decide (a.weight < b.weight) || (decide (a.weight = b.weight) && decide (a.seq ≤ b.seq))

/-- `popmin(Q)`: the entry that is popped before all others, and the rest of the queue; `none` for an empty queue
(42_tree_builder.md R223). -/
def popMin : List QEntry → Option (QEntry × List QEntry)
  | [] => none
  | e :: q =>
    match popMin q with
    | none => some (e, [])
    | some (m, rest) => if popsBefore e m then some (e, q) else some (m, e :: rest)

/-- The queue of the leaves, in frequency-table order with seq counted from `seq` (42_tree_builder.md R222). -/
def leafQueue : List (Byte × Nat) → Nat → List QEntry
  | [], _ => []
  | (s, c) :: rest, seq => ⟨.leaf s, c, seq⟩ :: leafQueue rest (seq + 1)

/-- The new entry of two popped ones: the first popped is the left child (42_tree_builder.md R224). -/
def combine (a b : QEntry) (seq : Nat) : QEntry := ⟨.internal a.node b.node, a.weight + b.weight, seq⟩

/-- The loop of BUILD, at most `fuel` rounds: while two entries are left, pop two, combine, push (42_tree_builder.md
R220). Each round leaves one entry less, so |Q| rounds are enough (R225; log 10). -/
def buildLoop : Nat → List QEntry → Nat → List QEntry
  | 0, q, _ => q
  | fuel + 1, q, seq =>
    match popMin q with
    | none => q
    | some (a, q1) =>
      match popMin q1 with
      | none => q
      | some (b, q2) => buildLoop fuel (q2 ++ [combine a b seq]) (seq + 1)

/-- The node of the single entry left (42_tree_builder.md R220); `absent` for an empty queue, which BUILD never
meets (log 10). -/
def onlyNode : List QEntry → Tree
  | [] => .absent
  | e :: _ => e.node

/-- BUILD (42_tree_builder.md R220). One symbol gives the single Leaf (R226): the loop then runs no round. -/
def build (freq : List (Byte × Nat)) : Tree :=
  match freq with
  | [(s, _)] => .leaf s
  | _ => onlyNode (buildLoop freq.length (leafQueue freq 0) freq.length)

end Sys2Proof.Machine
end

