-- ==== Sys2Proof/Machine/Engine.lean ====
section
/-! DEFINITION. The engine step: the stages of ENCODE and DECODE in order, and the end of the operation
(10_state.md R50; 48_commands.md R352 to R354, R356, R357, R360). -/

namespace Sys2Proof.Machine

/-- The stages of ENCODE from CODES on, for the symbols and their tree (48_commands.md R353, R356). -/
def encodeSymbols (maxOut : Nat) (syms : List Byte) (root : Tree) : Result Success :=
  let table := codeTable root
  let depth := codeDepth table
  let hdr := serializeHeader table depth
  let pay := encodePayload table syms
  match pack maxOut hdr pay with
  | .error x => .error x
  | .ok (pad, out) => .ok ⟨out, pad, table.length, depth, 3 + hdr.length, pay.length⟩

/-- The stages of ENCODE on the input characters (48_commands.md R353, R356). -/
def encodeChars (maxOut : Nat) (chars : List Word) : Result Success :=
  match freq chars with
  | .error x => .error x
  | .ok table => encodeSymbols maxOut (chars.map symbolOf) (build table)

/-- The stages of DECODE from RECON on, for a parsed header (48_commands.md R354, R357). -/
def decodeParsed (maxOut : Nat) (bits : Bits) (h : Header) : Result Success :=
  match reconstruct h.entries with
  | .error x => .error x
  | .ok root =>
    match walk root maxOut (slice bits h.c h.e) root 0 with
    | .error x => .error x
    | .ok out => .ok ⟨out, h.pad, h.count, h.depth, h.c, h.e - h.c⟩

/-- The stages of DECODE on the input bytes (48_commands.md R354, R357). -/
def decodeBytes (maxOut : Nat) (bytes : List Byte) : Result Success :=
  match parseHeader (unpack bytes) with
  | .error x => .error x
  | .ok h => decodeParsed maxOut (unpack bytes) h

/-- What the engine step of an operation comes to: the input-length check, then the stages (48_commands.md R352,
R356, R357). It reads IN_LEN, IN_MEM and the parameters only (R361). -/
def engineResult (op : Op) (s : State) : Result Success :=
  if s.params.maxIn < s.inLen.toNat then .error (raiseAt .inputLength .command)
  else
    match op with
    | .encode => encodeChars s.params.maxOut (inputChars s)
    | .decode => decodeBytes s.params.maxOut (inputBytes s)

/-- The engine step, one indivisible transition (10_state.md R50; 48_commands.md R360; 60_exceptions.md R420). -/
def engineStep (op : Op) (s : State) : State :=
  match engineResult op s with
  | .error x => raiseError x s
  | .ok r => finish r s

end Sys2Proof.Machine
end

