-- ==== Sys2Proof/Machine/HostPort.lean ====
section
/-! DEFINITION. The host port (20_memory.md R80 to R88), the actions that reach HUFCORE from outside, and which of the
host and the engine moves next (70_reset_and_hazards.md R462). -/

namespace Sys2Proof.Machine

/-- The port returns a value to the host (log 8). -/
def answer (v : Word) (s : State) : State := { s with replies := v :: s.replies }

/-- What the host's last read returned (30_encoding.md R131, `copy`; log 16). -/
def lastReply (s : State) : Word := s.replies.headD 0

/-- `RegRead(n)` (20_memory.md R82). -/
def regRead (n : BitVec 8) (s : State) : State := answer (readReg s (regName n)) s

/-- `RegWrite(n, v)` (20_memory.md R83, R84). A word written to CMD is issued as the command it decodes to, which drops
it if STATUS.BUSY = 1 (48_commands.md R350). -/
def regWrite (n : BitVec 8) (v : Word) (s : State) : StepResult :=
  if regName n = .cmd then exec (decode v) s
  else if regName n = .inLen then
    .next (if s.busy then dropWrite s else { s with inLen := v })
  else .next s

/-- `InRead(i)` (20_memory.md R87). -/
def inRead (i : Word) (s : State) : State :=
  answer (if i.toNat < s.params.maxIn then s.inEntry i.toNat else 0) s

/-- `InWrite(i, v)` (20_memory.md R85). -/
def inWrite (i v : Word) (s : State) : State :=
  if s.busy then dropWrite s
  else if i.toNat < s.params.maxIn then
    { s with inMem := Memory.write s.inMem i.toNat (charBits s.params v) }
  else s

/-- `OutRead(i)` (20_memory.md R86). While BUSY = 1 the byte returned is a free value, one draw per read (log 5). -/
def outRead (i : Word) (s : State) : State :=
  if s.params.maxOut ≤ i.toNat then answer 0 s
  else if s.busy then
    answer ((Config.freeReadByte s.draws).setWidth 32) { s with draws := s.draws + 1 }
  else answer ((s.outByte i.toNat).setWidth 32) s

/-- `OutWrite(i, v)`: no effect (20_memory.md R88). -/
def outWrite (_i _v : Word) (s : State) : State := s

/-- One transaction (20_memory.md R80). -/
def transact (t : HostTx) (s : State) : StepResult :=
  match t with
  | .regRead n => .next (regRead n s)
  | .regWrite n v => regWrite n v s
  | .inRead i => .next (inRead i s)
  | .inWrite i v => .next (inWrite i v s)
  | .outRead i => .next (outRead i s)
  | .outWrite i v => .next (outWrite i v s)

/-- One round of `poll REG[n], mask, value`: read, and poll again unless the condition holds (30_encoding.md R131). -/
def pollOnce (n : BitVec 8) (mask value : Word) (s : State) : State :=
  let t := regRead n s
  if lastReply t &&& mask = value then t
  else { t with pending := .poll n mask value :: t.pending }

/-- One host action (log 1). -/
def perform (a : HostAction) (s : State) : StepResult :=
  match a with
  | .tx t => transact t s
  | .poll n mask value => .next (pollOnce n mask value s)
  | .inWriteReply i => .next (inWrite i (lastReply s) s)
  | .reset => .next (resetMachine s)

/-- The next move (20_memory.md R98; 70_reset_and_hazards.md R462; logs 2 and 17). An idle engine leaves the move to
the host. A running operation lets `engineWait` host actions pass and then takes its engine step; it takes it at once
where the host has nothing left to do. -/
def advance (s : State) : StepResult :=
  match s.engine, s.pending with
  | .idle, [] => .next s
  | .idle, a :: rest => perform a { s with pending := rest }
  | .busy op, [] => .next (engineStep op s)
  | .busy op, a :: rest =>
    match s.engineWait with
    | 0 => .next (engineStep op s)
    | w + 1 => perform a { s with pending := rest, engineWait := w }

/-- `s` with a command word as the host's next action, and that action as the next move: a running operation waits for
one host action more (logs 1 and 18). -/
def withCommand (v : Word) (s : State) : State :=
  { s with
    pending := .tx (.regWrite 1 v) :: s.pending
    engineWait := match s.engine with | .idle => s.engineWait | .busy _ => s.engineWait + 1 }

end Sys2Proof.Machine
end

