-- ==== Sys2Proof/Machine/Step.lean ====
section
/-! DEFINITION. One step of HUFCORE and its host, and a command word placed as the next one. -/

namespace Sys2Proof.Machine

/-- One step: a host action, or the engine step (20_memory.md R98). -/
def step (s : State) : Host.Outcome State Fault Refusal := advance s

/-- `s` with the given command word, bits above `nbits` zero, as the word the next step issues (log 1). -/
def State.withFetchWord (s : State) (nbits w : Nat) : State := withCommand (BitVec.ofNat 32 (w % 2 ^ nbits)) s

end Sys2Proof.Machine
end

