-- ==== Sys2Proof/Machine/HostNotation.lean ====
section
/-! DEFINITION. The pseudo-instructions of the host notation as host actions (30_encoding.md R131; log 16). -/

namespace Sys2Proof.Machine

/-- `wr REG.CMD, v` (30_encoding.md R130). -/
def writeCmd (v : Word) : HostAction := .tx (.regWrite 1 v)

/-- `wr REG.IN_LEN, v` (30_encoding.md R130). -/
def writeInLen (v : Word) : HostAction := .tx (.regWrite 5 v)

/-- `poll REG.STATUS, 0x1, 0x0` (30_encoding.md R131). -/
def pollIdle : HostAction := .poll 2 1 0

/-- `nop` (30_encoding.md R131). -/
def pseudoNop : List HostAction := [writeCmd 0]

/-- `encode` (30_encoding.md R131). -/
def pseudoEncode : List HostAction := [writeCmd 1, pollIdle]

/-- `decode` (30_encoding.md R131). -/
def pseudoDecode : List HostAction := [writeCmd 2, pollIdle]

/-- `clear` (30_encoding.md R131). -/
def pseudoClear : List HostAction := [writeCmd 3]

/-- `wr IN[k], vs[0]`, `wr IN[k+1], vs[1]`, ... -/
def loadFrom : Nat → List Word → List HostAction
  | _, [] => []
  | k, v :: vs => .tx (.inWrite (BitVec.ofNat 32 k) v) :: loadFrom (k + 1) vs

/-- `load IN, [v0, ..., vn-1]` (30_encoding.md R131). -/
def pseudoLoad (vs : List Word) : List HostAction := loadFrom 0 vs ++ [writeInLen (BitVec.ofNat 32 vs.length)]

/-- `copy OUT, IN, n` (30_encoding.md R131; 48_commands.md R364). -/
def pseudoCopy (n : Nat) : List HostAction :=
  (List.range n).flatMap (fun k => [.tx (.outRead (BitVec.ofNat 32 k)), .inWriteReply (BitVec.ofNat 32 k)])
    ++ [writeInLen (BitVec.ofNat 32 n)]

end Sys2Proof.Machine
end

