-- ==== Sys2Proof/Safety.lean ====
section
/-! DEFINITION. The terms claims use: the invariant of a run, what a dropped write and an acceptance leave, and the
shape of the trees and code tables of ENCODE. -/

namespace Sys2Proof.Machine

/-! ### The invariant -/

/-- STATUS and the phase agree (10_state.md R35, R36, R50): bits 31:4 are zero, BUSY is the phase, BUSY excludes DONE
and ERR, ERR comes with DONE. -/
def StatusOk (s : State) : Prop :=
  s.status.toNat < 16 ∧ (s.busy = true ↔ s.engine ≠ .idle) ∧
    (s.busy = true → s.done = false ∧ s.err = false) ∧ (s.err = true → s.done = true)

/-- The values ERR_CODE can hold: 0, and STAGE and CODE of each pair of 60_exceptions.md R401 (R409 to R418). -/
def legalErrCodes : List Word :=
  [0x000, 0x201, 0x202, 0x203, 0x304, 0x305, 0x506, 0x407, 0x507, 0x608, 0x109, 0x10A]

/-- The error report is 0 unless ERR = 1, one of the listed pairs, and has an index for UnsupportedSymbolError only
(10_state.md R40, R41). -/
def ReportOk (s : State) : Prop :=
  (s.err = false → s.errCode = 0) ∧ s.errCode ∈ legalErrCodes ∧ (s.errIndex ≠ 0 → s.errCode = 0x202)

/-- Every result register holds 0. -/
def ResultsZero (s : State) : Prop :=
  s.outLen = 0 ∧ s.resPad = 0 ∧ s.resCount = 0 ∧ s.resDepth = 0 ∧ s.resHdrBits = 0 ∧ s.resPayloadBits = 0

/-- The result registers are 0 unless the last operation succeeded (10_state.md R43, R45, R46). -/
def ResultsOk (s : State) : Prop := ¬(s.done = true ∧ s.err = false) → ResultsZero s

/-- Both memories keep their canonical form within their sizes, and an IN_MEM entry has CHAR_WIDTH bits
(10_state.md R48, R49). -/
def MemoriesOk (s : State) : Prop :=
  Memory.wf s.params.maxIn s.inMem = true ∧ Memory.wf s.params.maxOut s.outMem = true ∧
    ∀ i, (s.inEntry i).toNat < 2 ^ s.params.charWidth

/-- The draws the memories rest on were taken before (log 3). -/
def DrawsOk (s : State) : Prop := s.inDraw < s.draws ∧ s.outDraw < s.draws

/-- The invariant of every run of a machine with legal parameters. -/
structure State.Inv (s : State) : Prop where
  params : s.params.Legal
  status : StatusOk s
  report : ReportOk s
  results : ResultsOk s
  memories : MemoriesOk s
  draws : DrawsOk s

/-- The result registers have the widths of 10_state.md R32 and R45, OUT_LEN fits OUT_MEM, and after a success
RES_HDR_BITS is the header length of 10_state.md R46. -/
def ResultWidthsOk (s : State) : Prop :=
  s.resPad.toNat < 8 ∧ s.resCount.toNat < 128 ∧ s.resDepth.toNat < 128 ∧ s.outLen.toNat ≤ s.params.maxOut ∧
    (s.done = true ∧ s.err = false →
      s.resHdrBits.toNat = 10 + s.resDepth.toNat + s.resCount.toNat * (s.resDepth.toNat + 8))

/-- A safe run: no number of steps ends in a fault or a refusal. -/
def State.Safe (s : State) : Prop := ∀ k, ∃ t : State, Sys2Proof.core.run k s = .next t

/-! ### What a command or a transaction leaves -/

/-- Every memory entry reads as before. -/
def SameMemories (s t : State) : Prop := (∀ i, t.inEntry i = s.inEntry i) ∧ ∀ i, t.outByte i = s.outByte i

/-- `t` is `s` after a dropped write: DROP is set, and nothing else changes (10_state.md R39). -/
def Dropped (s t : State) : Prop :=
  t = { s with status := t.status } ∧ t.drop = true ∧
    (∀ j, j ≠ 3 → t.status.getLsbD j = s.status.getLsbD j) ∧ SameMemories s t

/-- `t` is `s` after the acceptance of an operation (48_commands.md R351). The wait for the engine step is free. -/
def Accepted (op : Op) (s t : State) : Prop :=
  t.busy = true ∧ t.done = false ∧ t.err = false ∧
    (∀ j, 3 ≤ j → t.status.getLsbD j = s.status.getLsbD j) ∧
    t = { s with
          status := t.status
          errCode := 0
          errIndex := 0
          outLen := 0
          resPad := 0
          resCount := 0
          resDepth := 0
          resHdrBits := 0
          resPayloadBits := 0
          engine := .busy op
          engineWait := t.engineWait
          draws := s.draws + 1 } ∧
    SameMemories s t

/-- `t` is `s` after an operation that ended successfully with result `r` (48_commands.md R360; 10_state.md R49). -/
def Succeeded (r : Success) (s t : State) : Prop :=
  t.busy = false ∧ t.done = true ∧ t.err = false ∧
    (∀ j, 3 ≤ j → t.status.getLsbD j = s.status.getLsbD j) ∧
    t = { s with
          status := t.status
          outLen := BitVec.ofNat 32 r.out.length
          resPad := BitVec.ofNat 32 r.pad
          resCount := BitVec.ofNat 32 r.count
          resDepth := BitVec.ofNat 32 r.depth
          resHdrBits := BitVec.ofNat 32 r.hdrBits
          resPayloadBits := BitVec.ofNat 32 r.payloadBits
          outMem := t.outMem
          engine := .idle
          engineWait := 0 } ∧
    (∀ i, t.inEntry i = s.inEntry i) ∧
    ∀ i, t.outByte i = if h : i < r.out.length then r.out[i] else s.outByte i

/-- `t` is `s` after an operation that ended with an error report (60_exceptions.md R420): every OUT_MEM byte is the
free value of a new draw. -/
def Failed (errCode errIndex : Word) (s t : State) : Prop :=
  t.busy = false ∧ t.done = true ∧ t.err = true ∧
    (∀ j, 3 ≤ j → t.status.getLsbD j = s.status.getLsbD j) ∧
    t = { s with
          status := t.status
          errCode := errCode
          errIndex := errIndex
          outLen := 0
          resPad := 0
          resCount := 0
          resDepth := 0
          resHdrBits := 0
          resPayloadBits := 0
          outMem := t.outMem
          outDraw := t.outDraw
          draws := s.draws + 1
          engine := .idle
          engineWait := 0 } ∧
    (∀ i, t.inEntry i = s.inEntry i) ∧ ∀ i, t.outByte i = Config.freeOutByte s.draws i

/-! ### Inputs, trees and code tables -/

/-- The input of ENCODE is one that passes every check of FREQ (41_frequency_analyzer.md R201 to R208). -/
def ValidChars (chars : List Word) : Prop :=
  chars ≠ [] ∧ (∀ ch ∈ chars, ch.toNat ≤ 255) ∧ (chars.map symbolOf).dedup.length < 128

/-- Every Internal node has two children (42_tree_builder.md R227). -/
def FullTree : Tree → Prop
  | .absent => False
  | .leaf _ => True
  | .internal l r => FullTree l ∧ FullTree r

/-- No code of the table begins another (43_code_table.md R246). -/
def PrefixFree (table : List (Byte × Bits)) : Prop :=
  table.Pairwise fun p q => ¬ p.2 <+: q.2 ∧ ¬ q.2 <+: p.2

/-- The header entries of a code table: the padded codes with their symbols (44_header_codec.md R263, R276). -/
def paddedEntries (table : List (Byte × Bits)) (depth : Nat) : List (Bits × Byte) :=
  table.map fun p => (p.2 ++ zeros (depth - p.2.length), p.1)

/-! ### Headers -/

/-- The bits run short of the padding-count field, of the padding it names, of the count field, or of the entries
(44_header_codec.md R270, R271, R273). `p` is the padding-count field, `n` the count field, `d` the depth, and `tail` the
stripped padding. -/
def TruncatedHeader (bits : Bits) : Prop :=
  bits.length < 3 ∨
  (∃ p rest, bits = p ++ rest ∧ p.length = 3 ∧ rest.length < uintOf p) ∨
  (∃ p rest tail, bits = p ++ rest ++ tail ∧ p.length = 3 ∧ tail.length = uintOf p ∧ rest.length < 7) ∨
  ∃ p n rest tail d, bits = p ++ n ++ ones d ++ false :: rest ++ tail ∧ p.length = 3 ∧ n.length = 7 ∧
    tail.length = uintOf p ∧ 1 ≤ d ∧ d ≤ 127 ∧ rest.length + 1 < uintOf n * (d + 8)

/-- The marker meets no 0 bit before the data bits end, or its depth is 0 or above 127 (44_header_codec.md R272). -/
def MalformedHeader (bits : Bits) : Prop :=
  ∃ p n tail d, p.length = 3 ∧ n.length = 7 ∧ tail.length = uintOf p ∧
    (bits = p ++ n ++ ones d ++ tail ∨
      (d = 0 ∨ 127 < d) ∧ ∃ rest, bits = p ++ n ++ ones d ++ false :: rest ++ tail)

end Sys2Proof.Machine
end

