-- ==== Sys2Proof/Certificates/Slice0/Obligations.lean ====
section
/-! DEFINITION. The statements about HUFCORE, from the numbered rules of the spec. -/

open Sys2Proof Sys2Proof.Machine

/-! ### Reset and the invariant -/

/-- 70_reset_and_hazards.md R450, R451, 10_state.md R57: reset, from any state (a running operation included), leaves
every register number at its reset value, the phase IDLE, and each memory entry a free value of a new draw. -/
def Obligations.ResetLeavesTheStatedValues : Prop :=
  ∀ s : State, ∃ t, perform .reset s = .next t ∧ t.engine = .idle ∧
    (∀ n : BitVec 8, readReg t (regName n) =
      if n = 0 then 0x48554646
      else if n = 12 then BitVec.ofNat 32 s.params.maxIn
      else if n = 13 then BitVec.ofNat 32 s.params.maxOut
      else if n = 14 then BitVec.ofNat 32 s.params.charWidth
      else 0) ∧
    (∀ i, t.inEntry i = charBits s.params (Config.freeInEntry s.draws i)) ∧
    ∀ i, t.outByte i = Config.freeOutByte s.draws i

/-- 70_reset_and_hazards.md R453: after reset the machine is ready at once: STATUS = 0, phase = IDLE, and the next host
transaction is accepted. -/
def Obligations.ReadyAtOnceAfterReset : Prop :=
  ∀ s t : State, perform .reset s = .next t →
    t.status = 0 ∧ t.engine = .idle ∧
    ∀ a rest, step { t with pending := a :: rest } = perform a { t with pending := rest }

/-- 10_state.md R57 and 00_scope.md R10: the registers of the default build right after reset (95_test_vectors.md V90). -/
def Obligations.DefaultBuildResetRegisters : Prop :=
  State.reset.engine = .idle ∧
    ∀ n : BitVec 8, readReg State.reset (regName n) =
      if n = 0 then 0x48554646
      else if n = 12 then 65536
      else if n = 13 then 1048576
      else if n = 14 then 32
      else 0

/-- The invariant of a run and the widths of the result registers hold at reset. The registers, the phase and STATUS are
as 70_reset_and_hazards.md R450 leaves them; that the memories list nothing (canonical form) and that the draw numbers are
1, 0 and 0 is the model's choice (logs 3 and 7). -/
def Obligations.InvHoldsAtReset : Prop := State.reset.Inv ∧ ResultWidthsOk State.reset

/-- Every step keeps the invariant: legal parameters, STATUS and phase agree (10_state.md R35, R36), the error report and
the results are 0 when they must be (R40, R41, R43, R45, R46), an IN_MEM entry has CHAR_WIDTH bits and no index is beyond its
memory (R48, R49). The sorted canonical form of the memories, and the clause that the draws the memories rest on were
taken before, are the model's choice (logs 3 and 7). -/
def Obligations.StepKeepsInv : Prop :=
  ∀ s t : State, s.Inv → step s = .next t → t.Inv

/-- Every step keeps the widths of the result registers (10_state.md R32, R45), OUT_LEN within OUT_MEM, and the header
length of 10_state.md R46. -/
def Obligations.StepKeepsResultWidths : Prop :=
  ∀ s t : State, s.Inv → ResultWidthsOk s → step s = .next t → ResultWidthsOk t

/-- Every step answers a next state, so no run ends in a fault or a refusal. 93_implementation_defined.md section 4 gives
every access and every command word a defined outcome; that its error reports ('a fault') and its refusals ('no effect') are
next states of the model, and not its Fault and Refusal, is the model's reading (log 19). -/
def Obligations.EveryRunIsSafe : Prop :=
  ∀ s : State, (∃ t, step s = .next t) ∧ s.Safe

/-! ### Encoding -/

/-- Words written out from the opcode map decode to their instructions (30_encoding.md R111, 95_test_vectors.md V82 to
V84). -/
def Obligations.WrittenOutWordsDecode : Prop :=
  decode 0x00000000 = .nop ∧ decode 0x00000001 = .encode ∧ decode 0x00000002 = .decode ∧
    decode 0x00000003 = .clear ∧ decode 0x00000004 = .illegal 0x04 0 ∧ decode 0x00000100 = .illegal 0x00 1 ∧
    decode 0x00000101 = .illegal 0x01 1 ∧ decode 0xFFFFFFFF = .illegal 0xFF 0xFFFFFF

/-- 30_encoding.md R112: decoding is total, v[31:8] = 0 and v[7:0] = 0 to 3 are the four commands, and every other word is
ILLEGAL, with its own fields; the match/mask pairs of the table tell the legal words from the others. -/
def Obligations.DecodeIsTheOpcodeMap : Prop :=
  ∀ v : Word,
    (decode v = .nop ↔ v = 0x00000000) ∧ (decode v = .encode ↔ v = 0x00000001) ∧
    (decode v = .decode ↔ v = 0x00000002) ∧ (decode v = .clear ↔ v = 0x00000003) ∧
    (∀ opc rsvd, decode v = .illegal opc rsvd ↔
      opc = v.extractLsb' 0 8 ∧ rsvd = v.extractLsb' 8 24 ∧ (v.extractLsb' 8 24 ≠ 0 ∨ 4 ≤ (v.extractLsb' 0 8).toNat)) ∧
    ((∀ opc rsvd, decode v ≠ .illegal opc rsvd) ↔ ∃ r ∈ opcodeRows, rowMatches r v = true)

/-- Every well-formed instruction decodes from its own word, with every operand at every value (30_encoding.md R110 to
R112). -/
def Obligations.DecodeInvertsTheEncoder : Prop :=
  ∀ i : Instr, i.wellFormed = true → decode (encode i) = i

/-- Every word decodes to a well-formed instruction whose word it is: no bit of a word is dropped (30_encoding.md R112,
R113). -/
def Obligations.EveryWordIsTheWordOfItsInstruction : Prop :=
  ∀ v : Word, (decode v).wellFormed = true ∧ encode (decode v) = v

/-! ### Steps -/

/-- A command word placed as the next one is run by the next step, as the instruction it decodes to. How a word is placed
(a write to CMD at the head of the host's actions, and one more wait while an operation runs) is the model's choice (log 1),
and so is the cut of the numbered word to one 32-bit word (log 18). -/
def Obligations.StepRunsTheCommandWord : Prop :=
  ∀ (s : State) (nbits w : Nat) (i : Instr), decodeTableWord nbits w = some i →
    step (s.withFetchWord nbits w) = exec i s

/-- A step whose next host action is a write to CMD is `exec` of the decoded word (48_commands.md R350). That the step
consumes that action, and that the wait of a running operation is then one shorter, is the model's choice (logs 1 and 2). -/
def Obligations.StepIssuesTheWrittenWord : Prop :=
  ∀ (s : State) (v : Word) (rest : List HostAction), s.pending = .tx (.regWrite 1 v) :: rest →
    (s.engine = .idle → step s = exec (decode v) { s with pending := rest }) ∧
    ∀ op w, s.engine = .busy op → s.engineWait = w + 1 →
      step s = exec (decode v) { s with pending := rest, engineWait := w }

/-- 20_memory.md R98, 70_reset_and_hazards.md R462: the engine step falls between two host actions, after the drawn number
of them, or when the host has nothing left to do; an idle engine leaves every move to the host; a reset leaves what the
host is still going to do and what it has read. The schedule's form is the model's choice (logs 2, 13 and 17). -/
def Obligations.EngineStepFallsBetweenHostActions : Prop :=
  ∀ s : State,
    (∀ op, s.engine = .busy op → s.pending = [] ∨ s.engineWait = 0 → step s = .next (engineStep op s)) ∧
    (∀ op a rest w, s.engine = .busy op → s.pending = a :: rest → s.engineWait = w + 1 →
      step s = perform a { s with pending := rest, engineWait := w }) ∧
    (∀ a rest, s.engine = .idle → s.pending = a :: rest → step s = perform a { s with pending := rest }) ∧
    (s.engine = .idle → s.pending = [] → step s = .next s) ∧
    ∃ t, perform .reset s = .next t ∧ t.pending = s.pending ∧ t.replies = s.replies

/-- A running operation ends within a finite number of steps (70_reset_and_hazards.md R462, fairness). The rule says finite
only; the bound, one more than the host actions left in `engineWait`, is the model's schedule (log 2). -/
def Obligations.RunningOperationEnds : Prop :=
  ∀ s : State, s.Inv → s.busy = true →
    ∃ k ≤ s.engineWait + 1, ∃ t : State, core.run k s = .next t ∧ t.busy = false

/-- A host that polls STATUS sees BUSY = 0 in finite time (70_reset_and_hazards.md R462), and goes on behind its poll. The
rule says finite only; the bound is the model's schedule (log 2), and that the poll stays at the head of the host's actions
until its condition holds is the model's form of 30_encoding.md R131 (log 16). -/
def Obligations.PollingSeesTheEnd : Prop :=
  ∀ (s : State) (rest : List HostAction), s.Inv → s.busy = true → s.pending = pollIdle :: rest →
    ∃ k ≤ s.engineWait + 2, ∃ t : State, core.run k s = .next t ∧ t.busy = false ∧ t.pending = rest

/-! ### Host transactions -/

/-- 20_memory.md R82: RegRead returns the register's current value, 0 for CMD and the reserved numbers, and changes
nothing else. -/
def Obligations.RegReadReturnsTheRegister : Prop :=
  ∀ (s : State) (n : BitVec 8), ∃ v, transact (.regRead n) s = .next { s with replies := v :: s.replies } ∧
    (n = 0 → v = 0x48554646) ∧ (n = 1 → v = 0) ∧ (n = 2 → v = s.status) ∧ (n = 3 → v = s.errCode) ∧
    (n = 4 → v = s.errIndex) ∧ (n = 5 → v = s.inLen) ∧ (n = 6 → v = s.outLen) ∧ (n = 7 → v = s.resPad) ∧
    (n = 8 → v = s.resCount) ∧ (n = 9 → v = s.resDepth) ∧ (n = 10 → v = s.resHdrBits) ∧
    (n = 11 → v = s.resPayloadBits) ∧ (n = 12 → v = BitVec.ofNat 32 s.params.maxIn) ∧
    (n = 13 → v = BitVec.ofNat 32 s.params.maxOut) ∧ (n = 14 → v = BitVec.ofNat 32 s.params.charWidth) ∧
    (15 ≤ n.toNat → v = 0)

/-- 20_memory.md R83: RegWrite to CMD issues the word, to IN_LEN stores it, both dropped while BUSY = 1; to any other
number it has no effect. -/
def Obligations.RegWriteFollowsItsRule : Prop :=
  ∀ (s : State) (n : BitVec 8) (v : Word),
    ((n = 1 ∨ n = 5) → s.busy = true → ∃ t, transact (.regWrite n v) s = .next t ∧ Dropped s t) ∧
    (n = 1 → s.busy = false → transact (.regWrite n v) s = exec (decode v) s) ∧
    (n = 5 → s.busy = false → transact (.regWrite n v) s = .next { s with inLen := v }) ∧
    (n ≠ 1 → n ≠ 5 → transact (.regWrite n v) s = .next s)

/-- 20_memory.md R84, R88: a write to a read-only or reserved register, and OutWrite, change no state and do not set DROP,
whatever BUSY is. -/
def Obligations.WritesToReadOnlyPlacesDoNothing : Prop :=
  (∀ (s : State) (n : BitVec 8) (v : Word), (n.toNat ∈ [0, 2, 3, 4] ∨ (6 ≤ n.toNat ∧ n.toNat ≤ 14) ∨ 15 ≤ n.toNat) →
    transact (.regWrite n v) s = .next s) ∧
  ∀ (s : State) (i v : Word), transact (.outWrite i v) s = .next s

/-- 20_memory.md R85: InWrite keeps the low CHAR_WIDTH bits in its entry and leaves every other entry and everything else;
it is dropped while BUSY = 1, and without effect out of range. -/
def Obligations.InWriteFollowsItsRule : Prop :=
  ∀ (s : State) (i v : Word), ∃ t, transact (.inWrite i v) s = .next t ∧
    (s.busy = true → Dropped s t) ∧
    (s.busy = false → s.params.maxIn ≤ i.toNat → t = s) ∧
    (s.busy = false → i.toNat < s.params.maxIn →
      t = { s with inMem := t.inMem } ∧ (t.inEntry i.toNat).toNat = v.toNat % 2 ^ s.params.charWidth ∧
      (∀ j, j ≠ i.toNat → t.inEntry j = s.inEntry j) ∧ ∀ j, t.outByte j = s.outByte j)

/-- 20_memory.md R87: InRead returns the entry whatever BUSY is, 0 out of range, and changes nothing else. -/
def Obligations.InReadReturnsTheEntry : Prop :=
  ∀ (s : State) (i : Word), transact (.inRead i) s =
    .next { s with replies := (if i.toNat < s.params.maxIn then s.inEntry i.toNat else 0) :: s.replies }

/-- 20_memory.md R86: OutRead returns 0 out of range, the byte zero-extended while BUSY = 0, and some byte
zero-extended while BUSY = 1; it has no side effect (the count of draws is the model's own). -/
def Obligations.OutReadFollowsItsRule : Prop :=
  ∀ (s : State) (i : Word),
    (s.params.maxOut ≤ i.toNat → transact (.outRead i) s = .next { s with replies := 0 :: s.replies }) ∧
    (i.toNat < s.params.maxOut → s.busy = false →
      transact (.outRead i) s = .next { s with replies := (s.outByte i.toNat).setWidth 32 :: s.replies }) ∧
    (i.toNat < s.params.maxOut → s.busy = true →
      ∃ b : Byte, transact (.outRead i) s =
        .next { s with replies := b.setWidth 32 :: s.replies, draws := s.draws + 1 })

/-- 70_reset_and_hazards.md R457: while BUSY = 1, STATUS reads BUSY = 1, DONE = 0, ERR = 0, and the error report and every
result register read 0. -/
def Obligations.ReadsWhileBusy : Prop :=
  ∀ s : State, s.Inv → s.busy = true →
    (s.status = 0x1 ∨ s.status = 0x9) ∧
    ∀ n : BitVec 8, n.toNat ∈ [3, 4, 6, 7, 8, 9, 10, 11] → readReg s (regName n) = 0

/-! ### Commands -/

/-- 48_commands.md R355: NOP, word 0x00000000, changes no state; written while BUSY = 1 it is dropped. -/
def Obligations.NopChangesNothing : Prop :=
  decode 0x00000000 = .nop ∧ ∀ s : State,
    (s.busy = false → exec .nop s = .next s) ∧ (s.busy = true → ∃ t, exec .nop s = .next t ∧ Dropped s t)

/-- 48_commands.md R351: ENCODE and DECODE are accepted while BUSY = 0: BUSY set, DONE and ERR cleared, DROP kept, the
report and the results cleared, the phase BUSY with the operation; IN_LEN and both memories unchanged. -/
def Obligations.EncodeAndDecodeAreAccepted : Prop :=
  ∀ s : State, s.busy = false →
    (∃ t, exec .encode s = .next t ∧ Accepted .encode s t) ∧ ∃ t, exec .decode s = .next t ∧ Accepted .decode s t

/-- 48_commands.md R358: CLEAR zeroes STATUS, the report and the results, and leaves IN_LEN and both memories; while
BUSY = 1 it is dropped, so it cannot abort an operation. -/
def Obligations.ClearZeroesStatusReportAndResults : Prop :=
  decode 0x00000003 = .clear ∧
  (∀ s : State, s.busy = true → ∃ t, exec .clear s = .next t ∧ Dropped s t) ∧
  ∀ s : State, s.busy = false →
    ∃ t, exec .clear s = .next t ∧
      t = { s with
            status := 0
            errCode := 0
            errIndex := 0
            outLen := 0
            resPad := 0
            resCount := 0
            resDepth := 0
            resHdrBits := 0
            resPayloadBits := 0 } ∧
      SameMemories s t

/-- 48_commands.md R359, 60_exceptions.md R418: an illegal word issued while BUSY = 0 sets DONE and ERR, keeps BUSY and
DROP, reports 0x0000010A with index 0, zeroes the results, and leaves IN_LEN, both memories and the engine. Every word
but the four legal ones, 0 to 3, is such a word. -/
def Obligations.IllegalWordReportsIllegalCommand : Prop :=
  (∀ v : Word, 4 ≤ v.toNat → ∃ opc rsvd, decode v = .illegal opc rsvd) ∧
  ∀ (s : State) (opc : BitVec 8) (rsvd : BitVec 24), s.busy = false →
    ∃ t, exec (.illegal opc rsvd) s = .next t ∧ t.done = true ∧ t.err = true ∧
      (∀ j, j ≠ 1 → j ≠ 2 → t.status.getLsbD j = s.status.getLsbD j) ∧
      t = { s with
            status := t.status
            errCode := 0x0000010A
            errIndex := 0
            outLen := 0
            resPad := 0
            resCount := 0
            resDepth := 0
            resHdrBits := 0
            resPayloadBits := 0 } ∧
      SameMemories s t

/-- 10_state.md R39: DROP is set by a write to CMD (whatever the word), IN_LEN or IN_MEM while BUSY = 1, which has no other
effect; only CLEAR and reset clear it; acceptance leaves it. -/
def Obligations.DropIsSticky : Prop :=
  (∀ (s : State) (t : HostTx), s.busy = true →
    ((∃ v, t = .regWrite 1 v) ∨ (∃ v, t = .regWrite 5 v) ∨ ∃ i v, t = .inWrite i v) →
    ∃ u, transact t s = .next u ∧ Dropped s u) ∧
  (∀ (s : State) (i : Instr), s.busy = true → ∃ u, exec i s = .next u ∧ Dropped s u) ∧
  (∀ s t : State, step s = .next t → s.drop = true → t.drop = false →
    (∃ rest, s.pending = .tx (.regWrite 1 0x00000003) :: rest) ∨ ∃ rest, s.pending = .reset :: rest) ∧
  ∀ s t : State, s.busy = false → exec .encode s = .next t ∨ exec .decode s = .next t → t.drop = s.drop

/-! ### The engine step -/

/-- 48_commands.md R360: the successful end of an operation, with what it leaves unchanged; ERR_CODE and ERR_INDEX, 0
since the acceptance, stay 0. -/
def Obligations.SuccessfulEngineStep : Prop :=
  ∀ (op : Op) (s : State) (r : Success), engineResult op s = .ok r →
    Succeeded r s (engineStep op s) ∧
    (s.Inv → s.engine = .busy op → (engineStep op s).errCode = 0 ∧ (engineStep op s).errIndex = 0)

/-- 60_exceptions.md R420: the end of an operation by an error, with the value of ERR_CODE and what it leaves unchanged. -/
def Obligations.FailedEngineStep : Prop :=
  ∀ (op : Op) (s : State) (x : Raise), engineResult op s = .error x →
    Failed (BitVec.ofNat 32 (stageNumber x.stage * 256 + errorNumber x.error))
      (if x.error = .unsupportedSymbol then BitVec.ofNat 32 x.index else 0) s (engineStep op s)

/-- 48_commands.md R352, 60_exceptions.md R417: IN_LEN > MAX_IN ends ENCODE and DECODE with InputLengthError, whatever IN_MEM
holds. -/
def Obligations.InputLengthIsCheckedFirst : Prop :=
  ∀ (op : Op) (s : State), s.params.maxIn < s.inLen.toNat → Failed 0x00000109 0 s (engineStep op s)

/-- 60_exceptions.md R409: ENCODE with IN_LEN = 0 ends with EmptyInputError. -/
def Obligations.EmptyInputIsRejected : Prop :=
  ∀ s : State, s.inLen = 0 → Failed 0x00000201 0 s (engineStep .encode s)

/-- 41_frequency_analyzer.md R202: ENCODE of an input with a character above 255 reports UnsupportedSymbolError with the
smallest such index, zero-based. -/
def Obligations.UnsupportedSymbolNamesTheFirstIndex : Prop :=
  ∀ (s : State) (i : Nat), s.inLen.toNat ≤ s.params.maxIn → i < s.inLen.toNat → 255 < (s.inEntry i).toNat →
    (∀ j < i, (s.inEntry j).toNat ≤ 255) →
    Failed 0x00000202 (BitVec.ofNat 32 i) s (engineStep .encode s)

/-- 60_exceptions.md R411: ENCODE of an input with 128 or more distinct symbols, all representable, ends with
AlphabetTooLargeError. -/
def Obligations.AlphabetTooLargeIsRejected : Prop :=
  ∀ s : State, s.inLen.toNat ≤ s.params.maxIn → (∀ i < s.inLen.toNat, (s.inEntry i).toNat ≤ 255) →
    128 ≤ ((inputChars s).map symbolOf).dedup.length →
    Failed 0x00000203 0 s (engineStep .encode s)

/-- 48_commands.md R357 (corner cases): DECODE of no byte or of one byte, whatever its value, ends with
TruncatedStreamError. -/
def Obligations.TinyBufferIsTruncated : Prop :=
  ∀ s : State, s.inLen.toNat ≤ 1 → s.inLen.toNat ≤ s.params.maxIn → Failed 0x00000305 0 s (engineStep .decode s)

/-- 48_commands.md R361: the result of an operation depends on IN_LEN, the entries below it and the build's parameters
only. -/
def Obligations.ResultDependsOnTheInputOnly : Prop :=
  ∀ (op : Op) (s t : State), s.params = t.params → s.inLen = t.inLen →
    (∀ i < s.inLen.toNat, s.inEntry i = t.inEntry i) → engineResult op s = engineResult op t

/-- 20_memory.md R99, 70_reset_and_hazards.md R464: no host action but reset disturbs a running operation: it stays BUSY, its
input stays, and its result is the same whenever the engine step comes. -/
def Obligations.HostCannotDisturbARunningOperation : Prop :=
  ∀ (s t : State) (op : Op) (a : HostAction), s.Inv → s.engine = .busy op → a ≠ .reset → perform a s = .next t →
    t.engine = .busy op ∧ t.inLen = s.inLen ∧ SameMemories s t ∧ engineResult op t = engineResult op s

/-! ### Whole-machine rules -/

/-- 10_state.md R49: only the engine writes OUT_MEM; besides it, only a reset changes what it reads. -/
def Obligations.OnlyTheEngineWritesOutMem : Prop :=
  ∀ s t : State, step s = .next t → (∃ i, t.outByte i ≠ s.outByte i) →
    (∃ op, s.engine = .busy op ∧ t = engineStep op s) ∨ ∃ rest, s.pending = .reset :: rest

/-- 10_state.md R42, R48: IN_LEN changes only by a write to it while BUSY = 0 and by reset; an IN_MEM entry only by an
InWrite to it while BUSY = 0 (`copy`'s among them) and by reset. The engine changes neither. -/
def Obligations.OnlyTheHostWritesTheInput : Prop :=
  ∀ s t : State, step s = .next t →
    (t.inLen ≠ s.inLen → (s.busy = false ∧ ∃ rest, s.pending = .tx (.regWrite 5 t.inLen) :: rest) ∨
      ∃ rest, s.pending = .reset :: rest) ∧
    ∀ i, t.inEntry i ≠ s.inEntry i →
      (s.busy = false ∧ i < s.params.maxIn ∧ ∃ rest,
        (∃ v, s.pending = .tx (.inWrite (BitVec.ofNat 32 i) v) :: rest) ∨
          s.pending = .inWriteReply (BitVec.ofNat 32 i) :: rest) ∨
      ∃ rest, s.pending = .reset :: rest

/-- 60_exceptions.md R432, 10_state.md R36: the phase becomes BUSY only by the word of ENCODE or DECODE written to CMD, and IDLE
only by the engine step or a reset. -/
def Obligations.PhaseChangesByCommandEngineOrReset : Prop :=
  ∀ s t : State, step s = .next t →
    (s.engine = .idle → t.engine ≠ .idle → s.busy = false ∧ ∃ rest,
      (s.pending = .tx (.regWrite 1 0x00000001) :: rest ∧ t.engine = .busy .encode) ∨
        (s.pending = .tx (.regWrite 1 0x00000002) :: rest ∧ t.engine = .busy .decode)) ∧
    ∀ op, s.engine = .busy op → t.engine ≠ .busy op → s.busy = true →
      t = engineStep op s ∧ t.engine = .idle ∨ ∃ rest, s.pending = .reset :: rest

/-- 10_state.md R33, R44: ID and the capability registers read their constants in every state, and no step changes the
parameters they are equal to. -/
def Obligations.CapabilitiesAreConstant : Prop :=
  (∀ s : State, readReg s .id = 0x48554646 ∧ readReg s .capIn = BitVec.ofNat 32 s.params.maxIn ∧
    readReg s .capOut = BitVec.ofNat 32 s.params.maxOut ∧ readReg s .capChar = BitVec.ofNat 32 s.params.charWidth) ∧
  ∀ s t : State, step s = .next t → t.params = s.params

/-! ### The stages of ENCODE -/

/-- 41_frequency_analyzer.md R206: the frequency table lists every symbol with a non-zero count exactly once, in ascending
order, with its count (R205). -/
def Obligations.FrequencyTableIsAscendingAndExact : Prop :=
  ∀ syms : List Byte,
    (freqTable syms).Pairwise (fun p q => p.1.toNat < q.1.toNat) ∧
    ∀ (s : Byte) (c : Nat), (s, c) ∈ freqTable syms ↔ c = syms.count s ∧ 1 ≤ c

/-- 42_tree_builder.md R223: `popmin` takes an entry of smallest weight, among equal weights the smallest seq, and leaves the
others. -/
def Obligations.PopMinTakesTheFirstSmallest : Prop :=
  ∀ (q : List QEntry), q ≠ [] → ∃ m rest, popMin q = some (m, rest) ∧ (m :: rest).Perm q ∧
    ∀ e ∈ q, m.weight < e.weight ∨ m.weight = e.weight ∧ m.seq ≤ e.seq

/-- 42_tree_builder.md R222, R224, R226, R227, R228. The leaves are queued in table order with weight = count and seq = 0, 1, ...; one
round of the loop pops two entries and pushes an Internal node whose left child is the first popped and right child the
second, with the sum of their weights and the next seq; the loop ends with one entry, whose node BUILD returns and whose
weight is the sum of the counts; one symbol gives its Leaf. The tree is full with one leaf per table entry, no leaf deeper
than one less than their number. -/
def Obligations.BuildGivesAFullTree : Prop :=
  (∀ (freq : List (Byte × Nat)) (k : Nat),
    (leafQueue freq 0)[k]? = freq[k]?.map fun p => ⟨.leaf p.1, p.2, k⟩) ∧
  (∀ (fuel seq : Nat) (q q₁ q₂ : List QEntry) (a b : QEntry), popMin q = some (a, q₁) → popMin q₁ = some (b, q₂) →
    buildLoop (fuel + 1) q seq =
      buildLoop fuel (q₂ ++ [⟨.internal a.node b.node, a.weight + b.weight, seq⟩]) (seq + 1)) ∧
  (∀ (s : Byte) (c : Nat), build [(s, c)] = .leaf s) ∧
  ∀ freq : List (Byte × Nat), freq ≠ [] →
    (∃ e, buildLoop freq.length (leafQueue freq 0) freq.length = [e] ∧ build freq = e.node ∧
      e.weight = (freq.map Prod.snd).sum) ∧
    FullTree (build freq) ∧ ((visit (build freq) []).map Prod.fst).Perm (freq.map Prod.fst) ∧
      ∀ p ∈ visit (build freq) [], p.2.length + 1 ≤ freq.length

/-- 43_code_table.md R245, R246, R247: the codes of a full tree are prefix-free and non-empty, and the first one is zeros. -/
def Obligations.CodesArePrefixFree : Prop :=
  ∀ t : Machine.Tree, FullTree t →
    PrefixFree (codeTable t) ∧ (∀ p ∈ codeTable t, p.2 ≠ []) ∧
      ∃ s c rest, codeTable t = (s, c) :: rest ∧ c = zeros c.length

/-- 43_code_table.md R248: the codes of a tree with two or more leaves fill the code space. -/
def Obligations.CodesFillTheCodeSpace : Prop :=
  ∀ l r : Machine.Tree, FullTree l → FullTree r →
    let table := codeTable (.internal l r)
    (table.map fun p => 2 ^ (codeDepth table - p.2.length)).sum = 2 ^ codeDepth table

/-- 46_bitstream_packer.md R311, R312: the padding count over the whole stream and the stream itself, a whole number of
bytes. PACK gives bytes with exactly those bits where they fit MAX_OUT, and OutputOverflowError where they do not. -/
def Obligations.PackedStreamIsByteAligned : Prop :=
  ∀ (maxOut : Nat) (hdr pay : Bits),
    let pad := (8 - (3 + hdr.length + pay.length) % 8) % 8
    let total := 3 + hdr.length + pay.length + pad
    pad < 8 ∧ total % 8 = 0 ∧
      (maxOut < total / 8 → pack maxOut hdr pay = .error ⟨.outputOverflow, .output, 0⟩) ∧
      (total / 8 ≤ maxOut → ∃ out, pack maxOut hdr pay = .ok (pad, out) ∧ out.length * 8 = total ∧
        unpack out = bitsOf 3 pad ++ hdr ++ pay ++ zeros pad)

/-- 30_encoding.md R120 to R122: what ENCODE puts into OUT_MEM is the wire format, for a prefix-free code table of the input's
symbols whose first code is zeros: padding count, symbol count, unary depth, entries, payload in input order, zeros. -/
def Obligations.EncodedBytesFollowTheWireFormat : Prop :=
  ∀ (maxOut : Nat) (chars : List Word) (r : Success), encodeChars maxOut chars = .ok r →
    ∃ (table : List (Byte × Bits)) (s₀ : Byte) (k : Nat) (more : List (Byte × Bits)),
      PrefixFree table ∧ (table.map Prod.fst).Perm (chars.map symbolOf).dedup ∧ table = (s₀, zeros k) :: more ∧
      (∀ p ∈ table, 1 ≤ p.2.length ∧ p.2.length ≤ r.depth) ∧ (∃ p ∈ table, p.2.length = r.depth) ∧ r.depth ≤ 126 ∧
      r.count = table.length ∧ r.hdrBits = 10 + r.depth + r.count * (r.depth + 8) ∧
      r.payloadBits = ((chars.map symbolOf).flatMap (codeOf table)).length ∧
      unpack r.out = bitsOf 3 r.pad ++ bitsOf 7 r.count ++ ones r.depth ++
        (table.flatMap fun p => p.2 ++ zeros (r.depth - p.2.length) ++ bitsOf 8 p.1.toNat) ++
        (chars.map symbolOf).flatMap (codeOf table) ++ zeros r.pad

/-! ### The stages of DECODE -/

/-- 44_header_codec.md R270 to R273, 60_exceptions.md R407: HDR_PARSE answers TruncatedStreamError exactly for the bits that
`TruncatedHeader` describes (the padding-count field, the stripped padding, the count field or an entry runs short), and
MalformedHeaderError exactly for those that `MalformedHeader` describes (no 0 bit ends the marker, or the depth is 0 or above
127). DECODE of a buffer with such bits ends with 0x305 or 0x304. -/
def Obligations.HeaderErrorsAreReported : Prop :=
  (∀ bits : Bits, parseHeader bits = .error ⟨.truncatedStream, .header, 0⟩ ↔ TruncatedHeader bits) ∧
  (∀ bits : Bits, parseHeader bits = .error ⟨.malformedHeader, .header, 0⟩ ↔ MalformedHeader bits) ∧
  ∀ s : State, s.inLen.toNat ≤ s.params.maxIn →
    (TruncatedHeader (unpack (inputBytes s)) → Failed 0x00000305 0 s (engineStep .decode s)) ∧
    (MalformedHeader (unpack (inputBytes s)) → Failed 0x00000304 0 s (engineStep .decode s))

/-- 44_header_codec.md R273: a header whose data bits end before its last entry is TruncatedStreamError, and DECODE of a
buffer with such a header ends with 0x305, whatever its entries and its payload would give. `p` is the padding-count field,
`n` the count field, and `tail` the stripped padding. -/
def Obligations.ShortEntriesAreTruncated : Prop :=
  ∀ p n rest tail : Bits, ∀ d, p.length = 3 → n.length = 7 → tail.length = uintOf p → 1 ≤ d → d ≤ 127 →
    rest.length + 1 < uintOf n * (d + 8) →
    parseHeader (p ++ n ++ ones d ++ false :: rest ++ tail) = .error ⟨.truncatedStream, .header, 0⟩ ∧
    ∀ s : State, s.inLen.toNat ≤ s.params.maxIn →
      unpack (inputBytes s) = p ++ n ++ ones d ++ false :: rest ++ tail →
      Failed 0x00000305 0 s (engineStep .decode s)

/-- 44_header_codec.md R264, R276: HDR_PARSE gives back what HDR_SER wrote, whatever the values of the stripped padding bits
(30_encoding.md R125), with the cursor at the header's length. -/
def Obligations.ParseInvertsSerialize : Prop :=
  ∀ (table : List (Byte × Bits)) (depth : Nat) (pay tail : Bits) (s₀ : Byte) (c₀ : Bits) (more : List (Byte × Bits)),
    table = (s₀, c₀) :: more → table.length ≤ 127 → 1 ≤ depth → depth ≤ 127 →
    (∀ p ∈ table, p.2.length ≤ depth) → c₀.head? ≠ some true → tail.length < 8 →
    let hdrLength := 10 + depth + table.length * (depth + 8)
    parseHeader (bitsOf 3 tail.length ++ serializeHeader table depth ++ pay ++ tail) =
      .ok ⟨tail.length, table.length, depth, paddedEntries table depth, hdrLength, hdrLength + pay.length⟩

/-- 45_tree_reconstructor.md R293: of two entries with the same padded code the later one holds the terminal position. -/
def Obligations.LaterDuplicateEntryWins : Prop :=
  ∀ (before between after : List (Bits × Byte)) (code : Bits) (s₁ s₂ : Byte), code ≠ [] →
    (∀ p ∈ before ++ between ++ after, p.1.length = code.length) →
    uniformTree (before ++ (code, s₁) :: between ++ (code, s₂) :: after) =
      uniformTree (before ++ between ++ (code, s₂) :: after)

/-- 45_tree_reconstructor.md R295 to R297 and R299, for every tree, those ENCODE never makes included. DESCEND gives the symbol of the
leaf that some number of left steps reaches, and InvalidPathError, stage TREE, exactly where left steps reach an Internal
node without a left child. COLLAPSE replaces a left-only node by the leaf DESCEND finds (or fails as it does), keeps a
right-only node and a node with both children and collapses their children, left first, and keeps the root; so the root of a
reconstructed tree is an Internal node. DECODE of a buffer whose tree fails so ends with 0x407, whatever its payload. -/
def Obligations.CollapseFollowsItsRules : Prop :=
  (∀ (t : Machine.Tree) (s : Byte), descend t = .ok s ↔ ∃ k, leftChild^[k] t = .leaf s) ∧
  (∀ t : Machine.Tree, t ≠ .absent →
    (descend t = .error ⟨.invalidPath, .tree, 0⟩ ↔ ∃ k r, leftChild^[k] t = .internal .absent r)) ∧
  (∀ l : Machine.Tree, l ≠ .absent → collapse (.internal l .absent) false = (descend l).map .leaf) ∧
  (∀ (r r' : Machine.Tree) (isRoot : Bool), r ≠ .absent → collapse r false = .ok r' →
    collapse (.internal .absent r) isRoot = .ok (.internal .absent r')) ∧
  (∀ (l r l' r' : Machine.Tree) (isRoot : Bool), l ≠ .absent → r ≠ .absent → collapse l false = .ok l' →
    collapse r false = .ok r' → collapse (.internal l r) isRoot = .ok (.internal l' r')) ∧
  (∀ (l r : Machine.Tree) (isRoot : Bool) (x : Raise), r ≠ .absent →
    collapse l false = .error x ∨ (∃ l', collapse l false = .ok l') ∧ collapse r false = .error x →
    collapse (.internal l r) isRoot = .error x) ∧
  (∀ l l' : Machine.Tree, collapse l false = .ok l' →
    collapse (.internal l .absent) true = .ok (.internal l' .absent)) ∧
  (∀ (entries : List (Bits × Byte)) (t : Machine.Tree), (∀ p ∈ entries, p.1 ≠ []) → reconstruct entries = .ok t →
    ∃ l r, t = .internal l r) ∧
  ∀ (s : State) (h : Header), s.inLen.toNat ≤ s.params.maxIn → parseHeader (unpack (inputBytes s)) = .ok h →
    reconstruct h.entries = .error ⟨.invalidPath, .tree, 0⟩ → Failed 0x00000407 0 s (engineStep .decode s)

/-- 45_tree_reconstructor.md R301: from the padded codes of a tree RECON recovers the tree itself; from the one padded code of a
single leaf, the root with that leaf on its left. -/
def Obligations.ReconstructionRecoversTheTree : Prop :=
  (∀ l r : Machine.Tree, FullTree l → FullTree r →
    let table := codeTable (.internal l r)
    reconstruct (paddedEntries table (codeDepth table)) = .ok (.internal l r)) ∧
  ∀ s : Byte, reconstruct (paddedEntries (codeTable (.leaf s)) 1) = .ok (.internal (.leaf s) .absent)

/-- 45_tree_reconstructor.md R298: a header with symbol count 0 always ends in InvalidPathError, stage PAYLOAD, and DECODE of
a buffer with such a header in 0x507. -/
def Obligations.CountZeroEndsInInvalidPath : Prop :=
  ∀ h : Header, h.count = 0 →
    (∀ (maxOut : Nat) (bits : Bits), parseHeader bits = .ok h →
      decodeParsed maxOut bits h = .error ⟨.invalidPath, .payload, 0⟩) ∧
    ∀ s : State, s.inLen.toNat ≤ s.params.maxIn → parseHeader (unpack (inputBytes s)) = .ok h →
      Failed 0x00000507 0 s (engineStep .decode s)

/-- 47_payload_codec.md R335 to R338, 60_exceptions.md R407. Over the codes of a full tree the walk emits the symbols in order;
it reports OutputOverflowError when they exceed MAX_OUT, and UnexpectedEndOfStreamError when the bits end inside a code; in
any tree a bit for which the current node has no child ends it with InvalidPathError. DECODE of a buffer whose walk fails
ends with that error's code, 0x507, 0x506 or 0x608; so does one that holds the header of a full tree's code table and too many
codes, or codes and then a part of one, whatever the stripped padding. -/
def Obligations.WalkReadsCodeByCode : Prop :=
  (∀ (root node : Machine.Tree) (maxOut k : Nat) (b : Bool) (rest : Bits), childAt node b = .absent →
    walk root maxOut (b :: rest) node k = .error ⟨.invalidPath, .payload, 0⟩) ∧
  (∀ (s : State) (h : Header) (root : Machine.Tree), s.inLen.toNat ≤ s.params.maxIn →
    parseHeader (unpack (inputBytes s)) = .ok h → reconstruct h.entries = .ok root →
    let answer := walk root s.params.maxOut (slice (unpack (inputBytes s)) h.c h.e) root 0
    (answer = .error ⟨.invalidPath, .payload, 0⟩ → Failed 0x00000507 0 s (engineStep .decode s)) ∧
    (answer = .error ⟨.unexpectedEndOfStream, .payload, 0⟩ → Failed 0x00000506 0 s (engineStep .decode s)) ∧
    (answer = .error ⟨.outputOverflow, .output, 0⟩ → Failed 0x00000608 0 s (engineStep .decode s))) ∧
  ∀ (l r : Machine.Tree) (syms : List Byte), FullTree l → FullTree r →
    let root := Machine.Tree.internal l r
    let table := codeTable root
    (table.map Prod.fst).Nodup → (∀ s ∈ syms, s ∈ table.map Prod.fst) →
    (∀ maxOut : Nat,
      (syms.length ≤ maxOut → walk root maxOut (encodePayload table syms) root 0 = .ok syms) ∧
      (maxOut < syms.length →
        walk root maxOut (encodePayload table syms) root 0 = .error ⟨.outputOverflow, .output, 0⟩) ∧
      ∀ (p q : Bits) (s : Byte), syms.length ≤ maxOut → p ≠ [] → q ≠ [] → (s, p ++ q) ∈ table →
        walk root maxOut (encodePayload table syms ++ p) root 0 = .error ⟨.unexpectedEndOfStream, .payload, 0⟩) ∧
    ∀ (s : State) (p tail : Bits), s.inLen.toNat ≤ s.params.maxIn → table.length ≤ 127 → codeDepth table ≤ 127 →
      tail.length < 8 →
      unpack (inputBytes s) =
        bitsOf 3 tail.length ++ serializeHeader table (codeDepth table) ++ (encodePayload table syms ++ p) ++ tail →
      (s.params.maxOut < syms.length → p = [] → Failed 0x00000608 0 s (engineStep .decode s)) ∧
      ∀ (q : Bits) (c : Byte), syms.length ≤ s.params.maxOut → p ≠ [] → q ≠ [] → (c, p ++ q) ∈ table →
        Failed 0x00000506 0 s (engineStep .decode s)

/-! ### Whole operations -/

/-- ENCODE of every valid input runs from its word to its end: accepted by `exec`, then to success where its packed stream has
at most MAX_OUT bytes, and to OutputOverflowError where it has more (48_commands.md R351, R356, R360; 46_bitstream_packer.md
R314); the stream has at most 17154 + 126 IN_LEN + 7 bits (00_scope.md R13). That the engine step is the very next step, the
host having nothing left to do, is the model's choice (log 2). -/
def Obligations.EncodeRunsToSuccess : Prop :=
  ∀ s : State, s.busy = false → s.pending = [] → s.inLen.toNat ≤ s.params.maxIn → ValidChars (inputChars s) →
    let syms := (inputChars s).map symbolOf
    let table := codeTable (build (freqTable syms))
    let stream := streamBits (serializeHeader table (codeDepth table)) (encodePayload table syms)
    stream.length ≤ 17154 + 126 * s.inLen.toNat + 7 ∧
    ∃ a t, exec .encode s = .next a ∧ Accepted .encode s a ∧ step a = .next t ∧
      (stream.length / 8 ≤ s.params.maxOut → ∃ r, encodeChars s.params.maxOut (inputChars s) = .ok r ∧
        r.out.length = stream.length / 8 ∧ unpack r.out = stream ∧ Succeeded r a t) ∧
      (s.params.maxOut < stream.length / 8 → Failed 0x00000608 0 a t)

/-- DECODE of every buffer that holds the stream of a full tree's code table and of symbols of that table runs from its word to
its success, and emits those symbols (48_commands.md R351, R357, R360). That the engine step is the very next step, the host
having nothing left to do, is the model's choice (log 2). -/
def Obligations.DecodeRunsToSuccess : Prop :=
  ∀ (s : State) (tree : Machine.Tree) (syms : List Byte), s.busy = false → s.pending = [] → s.inLen.toNat ≤ s.params.maxIn →
    FullTree tree →
    let table := codeTable tree
    let depth := codeDepth table
    let pay := encodePayload table syms
    let hdrLength := 10 + depth + table.length * (depth + 8)
    (table.map Prod.fst).Nodup → table.length ≤ 127 → depth ≤ 127 → (∀ x ∈ syms, x ∈ table.map Prod.fst) →
    syms.length ≤ s.params.maxOut → unpack (inputBytes s) = streamBits (serializeHeader table depth) pay →
    ∃ a t, exec .decode s = .next a ∧ Accepted .decode s a ∧ step a = .next t ∧
      Succeeded ⟨syms, paddingBits (hdrLength + pay.length), table.length, depth, hdrLength, pay.length⟩ a t

/-- 47_payload_codec.md R340: for every input ENCODE accepts, DECODE of its output buffer succeeds and emits the input symbols in
order, with the same header values. `u` is the state after ENCODE; `t` holds the encoded buffer as its input (copied as
48_commands.md R364 says), in its low bytes (46_bitstream_packer.md R315). -/
def Obligations.DecodeInvertsEncode : Prop :=
  ∀ s t : State, s.params.Legal → t.params = s.params →
    let u := engineStep .encode s
    u.err = false → t.inLen = u.outLen → u.outLen.toNat ≤ t.params.maxIn → s.inLen.toNat ≤ t.params.maxOut →
    (∀ k < u.outLen.toNat, (t.inEntry k).extractLsb' 0 8 = u.outByte k) →
    let v := engineStep .decode t
    v.done = true ∧ v.err = false ∧ v.outLen = s.inLen ∧
      (∀ k < s.inLen.toNat, v.outByte k = (s.inEntry k).extractLsb' 0 8) ∧
      v.resPad = u.resPad ∧ v.resCount = u.resCount ∧ v.resDepth = u.resDepth ∧ v.resHdrBits = u.resHdrBits ∧
      v.resPayloadBits = u.resPayloadBits

/-- 00_scope.md R13: with the default parameters no operation ends with OutputOverflowError. -/
def Obligations.DefaultBuildNeverOverflows : Prop :=
  ∀ (op : Op) (s : State) (x : Raise), s.params = Config.defaultParams → engineResult op s = .error x →
    x.error ≠ .outputOverflow
end

