-- ==== Sys2Proof/Laws/Bits.lean ====
section
/-! SUPPORT. The primitives on bit sequences: lengths, and that reading a field inverts writing it (00_scope.md R16,
20_memory.md R91, R92). -/

namespace Sys2Proof.Machine

@[simp] theorem bitsOf_length (n v : Nat) : (bitsOf n v).length = n := by
  induction n with
  | zero => rfl
  | succ n ih => simp [bitsOf, ih]

@[simp] theorem zeros_length (n : Nat) : (zeros n).length = n := List.length_replicate

@[simp] theorem ones_length (n : Nat) : (ones n).length = n := List.length_replicate

@[simp] theorem bitsOfByte_length (b : Byte) : (bitsOfByte b).length = 8 := bitsOf_length 8 _

theorem uintOf_foldl (s : Bits) (acc : Nat) :
    s.foldl (fun acc b => 2 * acc + b.toNat) acc = acc * 2 ^ s.length + uintOf s := by
  induction s generalizing acc with
  | nil => simp [uintOf]
  | cons b s ih =>
    have h1 := ih (2 * acc + b.toNat)
    have h2 := ih (2 * 0 + b.toNat)
    simp only [uintOf, List.foldl_cons, List.length_cons] at h1 h2 ⊢
    rw [h1, h2]
    ring

theorem uintOf_cons (b : Bool) (s : Bits) : uintOf (b :: s) = b.toNat * 2 ^ s.length + uintOf s := by
  have h := uintOf_foldl s (2 * 0 + b.toNat)
  simp only [uintOf, List.foldl_cons] at h ⊢
  rw [h]
  ring

@[simp] theorem uintOf_nil : uintOf [] = 0 := rfl

/-- A field holds a value below two to its width. -/
theorem uintOf_lt (s : Bits) : uintOf s < 2 ^ s.length := by
  induction s with
  | nil => simp
  | cons b s ih =>
    rw [uintOf_cons, List.length_cons, pow_succ]
    cases b <;> simp <;> omega

/-- Reading an n-bit field gives the value written, cut to n bits. -/
theorem uintOf_bitsOf (n v : Nat) : uintOf (bitsOf n v) = v % 2 ^ n := by
  induction n with
  | zero => simp [bitsOf, Nat.mod_one]
  | succ n ih =>
    rw [bitsOf, uintOf_cons, ih, bitsOf_length, Nat.mod_pow_succ, Nat.toNat_testBit]
    ring

/-- A field depends on the bits below its width only. -/
theorem bitsOf_congr (n v w : Nat) (h : ∀ i < n, v.testBit i = w.testBit i) : bitsOf n v = bitsOf n w := by
  induction n with
  | zero => rfl
  | succ n ih => rw [bitsOf, bitsOf, h n (Nat.lt_succ_self n), ih fun i hi => h i (Nat.lt_succ_of_lt hi)]

/-- Writing the value of a field gives its bits back. -/
theorem bitsOf_uintOf (s : Bits) : bitsOf s.length (uintOf s) = s := by
  induction s with
  | nil => rfl
  | cons b s ih =>
    have hlt := uintOf_lt s
    have hbit : ∀ j, (uintOf (b :: s)).testBit j =
        if j < s.length then (uintOf s).testBit j else b.toNat.testBit (j - s.length) := by
      intro j
      rw [uintOf_cons, Nat.mul_comm, Nat.testBit_two_pow_mul_add _ hlt]
    rw [List.length_cons, bitsOf, hbit, if_neg (Nat.lt_irrefl _), Nat.sub_self,
      bitsOf_congr s.length _ (uintOf s) fun i hi => by rw [hbit, if_pos hi], ih]
    cases b <;> rfl

/-- A byte written as bits and read back (20_memory.md R91). -/
@[simp] theorem byteOfBits_bitsOfByte (b : Byte) : byteOfBits (bitsOfByte b) = b := by
  rw [byteOfBits, bitsOfByte, uintOf_bitsOf, Nat.mod_eq_of_lt b.isLt]
  simp

/-- Eight bits read as a byte and written back (20_memory.md R91). -/
theorem bitsOfByte_byteOfBits (s : Bits) (h : s.length = 8) : bitsOfByte (byteOfBits s) = s := by
  have hlt := uintOf_lt s
  rw [h] at hlt
  rw [bitsOfByte, byteOfBits, BitVec.toNat_ofNat, Nat.mod_eq_of_lt hlt]
  conv_rhs => rw [← bitsOf_uintOf s, h]

/-! ### Slices -/

theorem slice_length (s : Bits) (a b : Nat) : (slice s a b).length = min (b - a) (s.length - a) := by
  simp [slice]

/-- The bits between two lengths of a concatenation. -/
theorem slice_append (x y z : Bits) (a b : Nat) (ha : x.length = a) (hb : a + y.length = b) :
    slice (x ++ y ++ z) a b = y := by
  subst ha hb
  simp [slice]

/-- The bits of the first part of a concatenation. -/
theorem slice_append_zero (y z : Bits) (b : Nat) (hb : y.length = b) : slice (y ++ z) 0 b = y := by
  subst hb
  simp [slice]

/-! ### Packing -/

@[simp] theorem bytesOfBits_length (n : Nat) (s : Bits) : (bytesOfBits n s).length = n := by
  induction n generalizing s with
  | zero => rfl
  | succ n ih => simp [bytesOfBits, ih]

@[simp] theorem unpack_length (bytes : List Byte) : (unpack bytes).length = 8 * bytes.length := by
  induction bytes with
  | nil => rfl
  | cons b bytes ih => simp only [unpack, List.flatMap_cons, List.length_append, bitsOfByte_length] at ih ⊢; simp; omega

/-- UNPACK inverts the grouping into bytes of a whole number of bytes (46_bitstream_packer.md R313, R316). -/
theorem unpack_bytesOfBits (n : Nat) (s : Bits) (h : s.length = 8 * n) : unpack (bytesOfBits n s) = s := by
  induction n generalizing s with
  | zero => simpa [bytesOfBits, unpack, eq_comm] using h
  | succ n ih =>
    have ih' := ih (s.drop 8) (by simp; omega)
    simp only [unpack] at ih'
    rw [bytesOfBits, unpack, List.flatMap_cons, ih', bitsOfByte_byteOfBits _ (by simp; omega), List.take_append_drop]

/-- The padding count completes the length to a multiple of 8 and fits its 3 bits (46_bitstream_packer.md R311, R312). -/
theorem paddingBits_spec (len : Nat) : paddingBits len < 8 ∧ (len + paddingBits len) % 8 = 0 := by
  unfold paddingBits
  omega

theorem streamBits_length (hdr pay : Bits) :
    (streamBits hdr pay).length = unpaddedLength hdr pay + paddingBits (unpaddedLength hdr pay) := by
  simp [streamBits, unpaddedLength]
  omega

/-- What PACK answers, once for all callers (46_bitstream_packer.md R310 to R314). -/
theorem pack_cases (maxOut : Nat) (hdr pay : Bits) :
    (maxOut < (streamBits hdr pay).length / 8 ∧ pack maxOut hdr pay = .error (raiseAt .outputOverflow .output)) ∨
    ((streamBits hdr pay).length / 8 ≤ maxOut ∧
      ∃ out, pack maxOut hdr pay = .ok (paddingBits (unpaddedLength hdr pay), out) ∧
        out.length = (streamBits hdr pay).length / 8 ∧ unpack out = streamBits hdr pay) := by
  have hlen := streamBits_length hdr pay
  have hpad := (paddingBits_spec (unpaddedLength hdr pay)).2
  simp only [pack, ← hlen] at hpad ⊢
  by_cases h : maxOut < (streamBits hdr pay).length / 8
  · exact .inl ⟨h, by simp [h]⟩
  · exact .inr ⟨by omega, _, by simp [h], bytesOfBits_length _ _, unpack_bytesOfBits _ _ (by omega)⟩

end Sys2Proof.Machine
end

