-- ==== Sys2Proof/Laws/Codes.lean ====
section
/-! SUPPORT. The leaves of a tree and their paths: what VISIT and CODES give for a full tree (43_code_table.md R240 to
R249). -/

namespace Sys2Proof.Machine

/-- A visit from a path is the visit from the root, each path behind it. -/
theorem visit_eq_map (t : Tree) (path : Bits) :
    visit t path = (visit t []).map fun p => (p.1, path ++ p.2) := by
  induction t generalizing path with
  | absent => rfl
  | leaf s => simp [visit]
  | internal l r ihl ihr =>
    rw [visit, visit, ihl (path ++ [false]), ihr (path ++ [true]), ihl ([] ++ [false]), ihr ([] ++ [true])]
    simp [Function.comp_def]

/-- The leaves of an Internal node: those of the left child behind 0, then those of the right child behind 1
(43_code_table.md R241, R242). -/
theorem visit_internal (l r : Tree) :
    visit (.internal l r) [] =
      ((visit l []).map fun p => (p.1, false :: p.2)) ++ (visit r []).map fun p => (p.1, true :: p.2) := by
  rw [visit, visit_eq_map l, visit_eq_map r]
  rfl

/-- A full tree has a leaf. -/
theorem visit_ne_nil {t : Tree} (h : FullTree t) : visit t [] ≠ [] := by
  induction t with
  | absent => exact absurd h (by simp [FullTree])
  | leaf s => simp [visit]
  | internal l r ihl ihr => rw [visit_internal]; simp [ihl h.1]

/-- No leaf is deeper than one less than the number of leaves (42_tree_builder.md R228). -/
theorem visit_length_lt {t : Tree} (h : FullTree t) : ∀ p ∈ visit t [], p.2.length + 1 ≤ (visit t []).length := by
  induction t with
  | absent => exact absurd h (by simp [FullTree])
  | leaf s => simp [visit]
  | internal l r ihl ihr =>
    have hl := List.length_pos_iff.mpr (visit_ne_nil h.1)
    have hr := List.length_pos_iff.mpr (visit_ne_nil h.2)
    intro p hp
    rw [visit_internal] at hp ⊢
    simp only [List.length_append, List.length_map, List.mem_append, List.mem_map] at hp ⊢
    rcases hp with ⟨q, hq, rfl⟩ | ⟨q, hq, rfl⟩
    · have := ihl h.1 q hq
      simp only [List.length_cons]
      omega
    · have := ihr h.2 q hq
      simp only [List.length_cons]
      omega

/-- The paths of the leaves are prefix-free (43_code_table.md R246). -/
theorem visit_prefixFree (t : Tree) : PrefixFree (visit t []) := by
  induction t with
  | absent => exact List.Pairwise.nil
  | leaf s => exact List.pairwise_singleton _ _
  | internal l r ihl ihr =>
    rw [visit_internal, PrefixFree, List.pairwise_append]
    refine ⟨?_, ?_, ?_⟩
    · rw [List.pairwise_map]
      exact List.Pairwise.imp (by simp) ihl
    · rw [List.pairwise_map]
      exact List.Pairwise.imp (by simp) ihr
    · intro p hp q hq
      obtain ⟨p', -, rfl⟩ := List.mem_map.mp hp
      obtain ⟨q', -, rfl⟩ := List.mem_map.mp hq
      simp

/-- The first leaf is reached by left edges only (43_code_table.md R245). -/
theorem visit_head {t : Tree} (h : FullTree t) : ∃ s k rest, visit t [] = (s, zeros k) :: rest := by
  induction t with
  | absent => exact absurd h (by simp [FullTree])
  | leaf s => exact ⟨s, 0, [], rfl⟩
  | internal l r ihl ihr =>
    obtain ⟨s, k, rest, hl⟩ := ihl h.1
    rw [visit_internal, hl]
    exact ⟨s, k + 1, _, rfl⟩

/-- The leaves of a full tree fill the code space (43_code_table.md R248). -/
theorem visit_kraft {t : Tree} (h : FullTree t) (d : Nat) (hd : ∀ p ∈ visit t [], p.2.length ≤ d) :
    ((visit t []).map fun p => 2 ^ (d - p.2.length)).sum = 2 ^ d := by
  induction t generalizing d with
  | absent => exact absurd h (by simp [FullTree])
  | leaf s => simp [visit]
  | internal l r ihl ihr =>
    rw [visit_internal] at hd ⊢
    obtain ⟨p, hp⟩ := List.exists_mem_of_ne_nil _ (visit_ne_nil h.1)
    have hd1 := hd (p.1, false :: p.2) (List.mem_append_left _ (List.mem_map.mpr ⟨p, hp, rfl⟩))
    obtain ⟨d, rfl⟩ : ∃ e, d = e + 1 := ⟨d - 1, by simp at hd1; omega⟩
    have hl := ihl h.1 d fun q hq => by
      have := hd (q.1, false :: q.2) (List.mem_append_left _ (List.mem_map.mpr ⟨q, hq, rfl⟩))
      simpa using this
    have hr := ihr h.2 d fun q hq => by
      have := hd (q.1, true :: q.2) (List.mem_append_right _ (List.mem_map.mpr ⟨q, hq, rfl⟩))
      simpa using this
    simp only [List.map_append, List.map_map, List.sum_append, Function.comp_def, List.length_cons,
      Nat.add_sub_add_right, hl, hr]
    ring

/-! ### The code table -/

theorem codeTable_internal (l r : Tree) : codeTable (.internal l r) = visit (.internal l r) [] := rfl

/-- The code table has the leaves' symbols, in the leaves' order (43_code_table.md R242, R247). -/
theorem codeTable_symbols (t : Tree) : (codeTable t).map Prod.fst = (visit t []).map Prod.fst := by
  cases t <;> rfl

theorem codeDepth_ge {table : List (Byte × Bits)} {p : Byte × Bits} (h : p ∈ table) :
    p.2.length ≤ codeDepth table := by
  induction table with
  | nil => cases h
  | cons q table ih =>
    rcases List.mem_cons.mp h with rfl | h
    · exact Nat.le_max_left _ _
    · exact le_trans (ih h) (Nat.le_max_right _ _)

theorem codeDepth_attained {table : List (Byte × Bits)} (h : table ≠ []) :
    ∃ p ∈ table, p.2.length = codeDepth table := by
  induction table with
  | nil => exact absurd rfl h
  | cons q table ih =>
    cases table with
    | nil => exact ⟨q, List.mem_cons_self .., by simp [codeDepth]⟩
    | cons q' table =>
      obtain ⟨p, hp, hpd⟩ := ih (by simp)
      rcases Nat.le_total (codeDepth (q' :: table)) q.2.length with hle | hle
      · exact ⟨q, List.mem_cons_self .., by rw [codeDepth]; omega⟩
      · exact ⟨p, List.mem_cons_of_mem _ hp, by rw [hpd, codeDepth.eq_2 q.1 q.2]; omega⟩

/-- What CODES gives for a full tree, once for all callers (43_code_table.md R243 to R247). -/
theorem codeTable_spec {t : Tree} (h : FullTree t) :
    PrefixFree (codeTable t) ∧ (∀ p ∈ codeTable t, 1 ≤ p.2.length) ∧
      (∃ s k rest, codeTable t = (s, zeros k) :: rest) ∧ 1 ≤ codeDepth (codeTable t) ∧
      codeDepth (codeTable t) ≤ max 1 ((codeTable t).length - 1) := by
  cases t with
  | absent => exact absurd h (by simp [FullTree])
  | leaf s => exact ⟨List.pairwise_singleton _ _, by simp [codeTable], ⟨s, 1, [], rfl⟩, by simp [codeTable, codeDepth],
      by simp [codeTable, codeDepth]⟩
  | internal l r =>
    have hpos : ∀ p ∈ codeTable (.internal l r), 1 ≤ p.2.length := by
      intro p hp
      rw [codeTable_internal, visit_internal] at hp
      rcases List.mem_append.mp hp with hp | hp <;> obtain ⟨q, -, rfl⟩ := List.mem_map.mp hp <;> simp
    obtain ⟨p, hp, hpd⟩ := codeDepth_attained (table := codeTable (.internal l r)) (visit_ne_nil h)
    refine ⟨visit_prefixFree _, hpos, visit_head h, hpd ▸ hpos p hp, ?_⟩
    have := visit_length_lt h p hp
    rw [← hpd]
    simp only [codeTable_internal] at this ⊢
    omega

/-- The lookup of a symbol with one entry (00_scope.md R19). -/
theorem codeOf_eq {table : List (Byte × Bits)} (hn : (table.map Prod.fst).Nodup) {s : Byte} {c : Bits}
    (h : (s, c) ∈ table) : codeOf table s = c := by
  induction table with
  | nil => cases h
  | cons p table ih =>
    obtain ⟨s', c'⟩ := p
    rw [List.map_cons, List.nodup_cons] at hn
    rcases List.mem_cons.mp h with heq | h
    · cases heq
      simp [codeOf]
    · have hne : s ≠ s' := fun heq => hn.1 (heq ▸ List.mem_map.mpr ⟨(s, c), h, rfl⟩)
      have := ih hn.2 h
      rw [codeOf] at this ⊢
      rw [List.lookup_cons, show (s == s') = false by simp [hne]]
      exact this

end Sys2Proof.Machine
end

