-- ==== Sys2Proof/Laws/Build.lean ====
section
/-! SUPPORT. What FREQ and BUILD give (41_frequency_analyzer.md, 42_tree_builder.md). -/

namespace Sys2Proof.Machine

/-! ### FREQ -/

/-- The scan finds no character above 255 exactly when there is none (41_frequency_analyzer.md R202). -/
theorem firstUnsupported_none (chars : List Word) (i : Nat) :
    firstUnsupported chars i = none ↔ ∀ ch ∈ chars, ch.toNat ≤ 255 := by
  induction chars generalizing i with
  | nil => simp [firstUnsupported]
  | cons ch chars ih =>
    by_cases h : ch.toNat ≤ 255 <;> simp [firstUnsupported, representable, h, ih]

/-- The scan stops at the first character above 255 (41_frequency_analyzer.md R202). -/
theorem firstUnsupported_some (front : List Word) (ch : Word) (back : List Word) (i : Nat)
    (hf : ∀ c ∈ front, c.toNat ≤ 255) (hc : 255 < ch.toNat) :
    firstUnsupported (front ++ ch :: back) i = some (i + front.length) := by
  induction front generalizing i with
  | nil => simp [firstUnsupported, representable, hc]
  | cons c front ih =>
    have h1 : c.toNat ≤ 255 := hf c (List.mem_cons_self ..)
    have h2 := ih (i + 1) fun d hd => hf d (List.mem_cons_of_mem _ hd)
    simp only [List.cons_append, firstUnsupported, representable, h1, decide_true, if_true, h2, List.length_cons]
    congr 1
    omega

/-- An entry of the frequency table is a symbol that occurs, with its count (41_frequency_analyzer.md R205 to R207). -/
theorem mem_freqTable (syms : List Byte) (s : Byte) (c : Nat) :
    (s, c) ∈ freqTable syms ↔ c = syms.count s ∧ 1 ≤ c := by
  simp only [freqTable, List.mem_filterMap, List.mem_range]
  constructor
  · rintro ⟨v, -, hv⟩
    split at hv
    · cases hv
      exact ⟨rfl, by assumption⟩
    · cases hv
  · rintro ⟨rfl, h⟩
    exact ⟨s.toNat, s.isLt, by simp [List.count_pos_iff.mp h]⟩

/-- The symbols of the frequency table rise (41_frequency_analyzer.md R206). -/
theorem freqTable_ascending (syms : List Byte) :
    (freqTable syms).Pairwise fun p q => p.1.toNat < q.1.toNat := by
  rw [freqTable, List.pairwise_filterMap]
  refine List.Pairwise.imp_of_mem ?_ List.pairwise_lt_range
  intro a b ha hb hab p hp q hq
  simp only [List.mem_range] at ha hb
  simp only at hp hq
  split at hp
  · split at hq
    · cases hp
      cases hq
      simp only [BitVec.toNat_ofNat]
      omega
    · cases hq
  · cases hp

theorem freqTable_nodup (syms : List Byte) : ((freqTable syms).map Prod.fst).Nodup := by
  rw [List.Nodup, List.pairwise_map]
  exact (freqTable_ascending syms).imp fun {p q} h heq => absurd (heq ▸ h) (Nat.lt_irrefl _)

theorem mem_freqTable_symbols (syms : List Byte) (s : Byte) : s ∈ (freqTable syms).map Prod.fst ↔ s ∈ syms := by
  constructor
  · intro h
    obtain ⟨⟨s', c⟩, hp, rfl⟩ := List.mem_map.mp h
    obtain ⟨rfl, hc⟩ := (mem_freqTable syms s' c).mp hp
    exact List.count_pos_iff.mp hc
  · intro h
    exact List.mem_map.mpr ⟨(s, syms.count s), (mem_freqTable syms s _).mpr ⟨rfl, List.count_pos_iff.mpr h⟩, rfl⟩

/-- The table covers every distinct symbol exactly once (41_frequency_analyzer.md R207). -/
theorem freqTable_symbols_perm (syms : List Byte) : ((freqTable syms).map Prod.fst).Perm syms.dedup :=
  (List.perm_ext_iff_of_nodup (freqTable_nodup syms) (List.nodup_dedup syms)).mpr fun s => by
    rw [mem_freqTable_symbols, List.mem_dedup]

theorem freqTable_length (syms : List Byte) : (freqTable syms).length = syms.dedup.length := by
  simpa using (freqTable_symbols_perm syms).length_eq

/-- What FREQ answers, once for all callers (41_frequency_analyzer.md R200 to R208). -/
theorem freq_ok {chars : List Word} {table : List (Byte × Nat)} :
    freq chars = .ok table ↔ ValidChars chars ∧ table = freqTable (chars.map symbolOf) := by
  unfold freq ValidChars
  by_cases h0 : chars = []
  · simp [h0]
  · rw [if_neg h0]
    cases hf : firstUnsupported chars 0 with
    | some i =>
      have : ¬∀ ch ∈ chars, ch.toNat ≤ 255 := fun hall => by
        rw [(firstUnsupported_none chars 0).mpr hall] at hf
        cases hf
      simp [this]
    | none =>
      have hall := (firstUnsupported_none chars 0).mp hf
      by_cases h128 : 128 ≤ (freqTable (chars.map symbolOf)).length
      · have : ¬(chars.map symbolOf).dedup.length < 128 := by rw [← freqTable_length]; omega
        simp [h128, this]
      · have : (chars.map symbolOf).dedup.length < 128 := by rw [← freqTable_length]; omega
        simp only [h128, if_false, Except.ok.injEq, this]
        exact ⟨fun h => ⟨⟨h0, hall, trivial⟩, h.symm⟩, fun h => h.2.symm⟩

/-- FREQ fails with one of its three errors, stage INPUT (41_frequency_analyzer.md R200). -/
theorem freq_error {chars : List Word} {x : Raise} (h : freq chars = .error x) :
    x.stage = .input ∧
      (x.error = .emptyInput ∨ x.error = .unsupportedSymbol ∨ x.error = .alphabetTooLarge) := by
  unfold freq at h
  split at h
  · cases h; simp [raiseAt]
  · split at h
    · cases h; simp
    · simp only at h
      split at h
      · cases h; simp [raiseAt]
      · cases h

/-! ### The queue -/

theorem popsBefore_iff (a b : QEntry) :
    popsBefore a b = true ↔ a.weight < b.weight ∨ a.weight = b.weight ∧ a.seq ≤ b.seq := by
  simp [popsBefore]

theorem popMin_eq_none {q : List QEntry} : popMin q = none ↔ q = [] := by
  cases q with
  | nil => simp [popMin]
  | cons e q =>
    rw [popMin]
    cases popMin q with
    | none => simp
    | some m => by_cases h : popsBefore e m.1 = true <;> simp [h]

/-- `popmin` takes one entry that pops before all others and leaves the rest (42_tree_builder.md R223). -/
theorem popMin_some {q : List QEntry} {m : QEntry} {rest : List QEntry} (h : popMin q = some (m, rest)) :
    (m :: rest).Perm q ∧ ∀ e ∈ q, popsBefore m e = true := by
  induction q generalizing m rest with
  | nil => cases h
  | cons e q ih =>
    rw [popMin] at h
    cases hq : popMin q with
    | none =>
      rw [hq] at h
      cases h
      rw [popMin_eq_none] at hq
      subst hq
      simp [popsBefore]
    | some m' =>
      obtain ⟨m', rest'⟩ := m'
      obtain ⟨hperm, hmin⟩ := ih hq
      rw [hq] at h
      by_cases hb : popsBefore e m' = true
      · simp only [hb, if_true, Option.some.injEq, Prod.mk.injEq] at h
        obtain ⟨rfl, rfl⟩ := h
        refine ⟨List.Perm.refl _, ?_⟩
        intro x hx
        rcases List.mem_cons.mp hx with rfl | hx
        · simp [popsBefore]
        · have hx' := hmin x hx
          rw [popsBefore_iff] at hb hx' ⊢
          omega
      · simp only [hb, Bool.false_eq_true, if_false, Option.some.injEq, Prod.mk.injEq] at h
        obtain ⟨rfl, rfl⟩ := h
        refine ⟨(List.Perm.swap e m' rest').trans (hperm.cons e), ?_⟩
        intro x hx
        rcases List.mem_cons.mp hx with rfl | hx
        · rw [popsBefore_iff] at hb ⊢
          omega
        · exact hmin x hx

/-! ### BUILD -/

/-- The symbols of the leaves of a queue's nodes. -/
def queueLeaves (q : List QEntry) : List Byte := q.flatMap fun e => (visit e.node []).map Prod.fst

theorem visit_internal_symbols (l r : Tree) :
    (visit (.internal l r) []).map Prod.fst = (visit l []).map Prod.fst ++ (visit r []).map Prod.fst := by
  rw [visit_internal]
  simp [Function.comp_def]

/-- The sum of the weights of a queue. -/
def queueWeight (q : List QEntry) : Nat := (q.map QEntry.weight).sum

/-- The loop of BUILD keeps the leaves and the fullness of the nodes and the sum of the weights, and ends with one entry
(42_tree_builder.md R220, R225, R227). -/
theorem buildLoop_spec (fuel : Nat) (q : List QEntry) (seq : Nat) (hq : q ≠ []) (hfuel : q.length ≤ fuel + 1)
    (hfull : ∀ e ∈ q, FullTree e.node) :
    ∃ e, buildLoop fuel q seq = [e] ∧ FullTree e.node ∧ ((visit e.node []).map Prod.fst).Perm (queueLeaves q) ∧
      e.weight = queueWeight q := by
  induction fuel generalizing q seq with
  | zero =>
    obtain ⟨e, rfl⟩ := List.length_eq_one_iff.mp
      (show q.length = 1 by have := List.length_pos_iff.mpr hq; omega)
    exact ⟨e, rfl, hfull e (List.mem_cons_self ..), by simp [queueLeaves], by simp [queueWeight]⟩
  | succ fuel ih =>
    rw [buildLoop]
    cases h1 : popMin q with
    | none => exact absurd (popMin_eq_none.mp h1) hq
    | some p1 =>
      obtain ⟨a, q1⟩ := p1
      obtain ⟨hp1, -⟩ := popMin_some h1
      have hlen1 := hp1.length_eq
      cases h2 : popMin q1 with
      | none =>
        rw [popMin_eq_none] at h2
        subst h2
        obtain ⟨e, rfl⟩ := List.length_eq_one_iff.mp (show q.length = 1 by simpa using hlen1.symm)
        exact ⟨e, rfl, hfull e (List.mem_cons_self ..), by simp [queueLeaves], by simp [queueWeight]⟩
      | some p2 =>
        obtain ⟨b, q2⟩ := p2
        obtain ⟨hp2, -⟩ := popMin_some h2
        have hlen2 := hp2.length_eq
        have hperm : (a :: b :: q2).Perm q := (hp2.cons a).trans hp1
        have hmem : ∀ e, e = a ∨ e = b ∨ e ∈ q2 → FullTree e.node := fun e he =>
          hfull e (hperm.mem_iff.mp (by simpa using he))
        obtain ⟨e, he, hf, hl, hw⟩ := ih (q2 ++ [combine a b seq]) (seq + 1) (by simp)
          (by simp only [List.length_cons, List.length_append, List.length_nil] at hlen1 hlen2 ⊢; omega) (by
            intro e he
            rcases List.mem_append.mp he with he | he
            · exact hmem e (.inr (.inr he))
            · rw [List.mem_singleton.mp he]
              exact ⟨hmem a (.inl rfl), hmem b (.inr (.inl rfl))⟩)
        have hweight : queueWeight (a :: b :: q2) = queueWeight q := (hperm.map QEntry.weight).sum_eq
        refine ⟨e, by simpa only [h2] using he, hf, hl.trans ?_, hw.trans ?_⟩
        rotate_left
        · rw [← hweight]
          simp only [queueWeight, List.map_append, List.map_cons, List.map_nil, List.sum_append, List.sum_cons,
            List.sum_nil, combine]
          omega
        have hflat : (queueLeaves (a :: b :: q2)).Perm (queueLeaves q) := hperm.flatMap_right _
        refine List.Perm.trans ?_ hflat
        simp only [queueLeaves, List.flatMap_append, List.flatMap_cons, List.flatMap_nil, List.append_nil, combine,
          visit_internal_symbols]
        rw [← List.append_assoc ((visit a.node []).map Prod.fst)]
        exact List.perm_append_comm

theorem leafQueue_length (freq : List (Byte × Nat)) (seq : Nat) : (leafQueue freq seq).length = freq.length := by
  induction freq generalizing seq with
  | nil => rfl
  | cons p freq ih => simp [leafQueue, ih]

theorem leafQueue_full (freq : List (Byte × Nat)) (seq : Nat) : ∀ e ∈ leafQueue freq seq, FullTree e.node := by
  induction freq generalizing seq with
  | nil => simp [leafQueue]
  | cons p freq ih => simpa [leafQueue, FullTree] using ih (seq + 1)

theorem leafQueue_leaves (freq : List (Byte × Nat)) (seq : Nat) :
    queueLeaves (leafQueue freq seq) = freq.map Prod.fst := by
  induction freq generalizing seq with
  | nil => rfl
  | cons p freq ih =>
    have := ih (seq + 1)
    simp only [queueLeaves] at this ⊢
    simp [leafQueue, visit, this]

theorem leafQueue_weight (freq : List (Byte × Nat)) (seq : Nat) :
    queueWeight (leafQueue freq seq) = (freq.map Prod.snd).sum := by
  induction freq generalizing seq with
  | nil => rfl
  | cons p freq ih =>
    have := ih (seq + 1)
    simp only [queueWeight] at this ⊢
    simp [leafQueue, this]

/-- The queue before the loop: the leaves in table order, with their counts and places (42_tree_builder.md R222). -/
theorem leafQueue_getElem? (freq : List (Byte × Nat)) (seq k : Nat) :
    (leafQueue freq seq)[k]? = freq[k]?.map fun p => ⟨.leaf p.1, p.2, seq + k⟩ := by
  induction freq generalizing seq k with
  | nil => rfl
  | cons p freq ih =>
    cases k with
    | zero => rfl
    | succ k =>
      have := ih (seq + 1) k
      simp only [leafQueue, List.getElem?_cons_succ, this]
      rw [show seq + 1 + k = seq + (k + 1) by omega]

/-- What BUILD gives, once for all callers (42_tree_builder.md R225 to R227). -/
theorem build_spec (freq : List (Byte × Nat)) (h : freq ≠ []) :
    FullTree (build freq) ∧ ((visit (build freq) []).map Prod.fst).Perm (freq.map Prod.fst) ∧
      ∃ e, buildLoop freq.length (leafQueue freq 0) freq.length = [e] ∧ build freq = e.node ∧
        e.weight = (freq.map Prod.snd).sum := by
  obtain ⟨e, he, hf, hl, hw⟩ := buildLoop_spec freq.length (leafQueue freq 0) freq.length
    (fun h0 => h (List.length_eq_zero_iff.mp (by rw [← leafQueue_length freq 0, h0]; rfl)))
    (by rw [leafQueue_length]; omega) (leafQueue_full freq 0)
  rw [leafQueue_leaves] at hl
  rw [leafQueue_weight] at hw
  have hnode : build freq = e.node := by
    unfold build
    split
    · cases he
      rfl
    · rw [he]
      rfl
  rw [hnode]
  exact ⟨hf, hl, e, he, rfl, hw⟩

end Sys2Proof.Machine
end

