-- ==== Sys2Proof/Laws/Decode.lean ====
section
/-! SUPPORT. A command word and its fields, and the numbers of the two writable registers (30_encoding.md R110; 10_state.md
R32). -/

namespace Sys2Proof

/-- The value of a word, from its fields. -/
theorem wordOfFields_toNat (opc : BitVec 8) (rsvd : BitVec 24) :
    (wordOfFields opc rsvd).toNat = rsvd.toNat * 256 + opc.toNat := by
  have h : opc.toNat < 2 ^ 8 := opc.isLt
  rw [wordOfFields, BitVec.toNat_append, Nat.shiftLeft_eq, Nat.mul_comm, ← Nat.two_pow_add_eq_or_of_lt h]

theorem opcField_toNat (v : Word) : (opcField v).toNat = v.toNat % 256 := by
  simp [opcField]

theorem rsvdField_toNat (v : Word) : (rsvdField v).toNat = v.toNat / 256 := by
  have := v.isLt
  simp only [rsvdField, BitVec.extractLsb'_toNat, Nat.shiftRight_eq_div_pow]
  omega

@[simp] theorem opcField_wordOfFields (opc : BitVec 8) (rsvd : BitVec 24) :
    opcField (wordOfFields opc rsvd) = opc := by
  apply BitVec.eq_of_toNat_eq
  rw [opcField_toNat, wordOfFields_toNat]
  omega

@[simp] theorem rsvdField_wordOfFields (opc : BitVec 8) (rsvd : BitVec 24) :
    rsvdField (wordOfFields opc rsvd) = rsvd := by
  apply BitVec.eq_of_toNat_eq
  rw [rsvdField_toNat, wordOfFields_toNat]
  omega

/-- A word is its two fields (30_encoding.md R110). -/
@[simp] theorem wordOfFields_fields (v : Word) : wordOfFields (opcField v) (rsvdField v) = v := by
  apply BitVec.eq_of_toNat_eq
  rw [wordOfFields_toNat, opcField_toNat, rsvdField_toNat]
  omega

/-- The decoder by the value of the word (30_encoding.md R112). -/
theorem decode_eq (v : Word) :
    decode v =
      if v.toNat = 0 then .nop else if v.toNat = 1 then .encode else if v.toNat = 2 then .decode
      else if v.toNat = 3 then .clear else .illegal (opcField v) (rsvdField v) := by
  have hr := rsvdField_toNat v
  have ho := opcField_toNat v
  unfold decode
  by_cases h : v.toNat < 256
  · have h0 : rsvdField v = 0 := BitVec.eq_of_toNat_eq (by rw [hr]; simpa using h)
    rw [if_pos h0, ho, Nat.mod_eq_of_lt h]
    rcases v.toNat with _ | _ | _ | _ | n <;> simp
  · have h0 : rsvdField v ≠ 0 := fun h0 => by
      rw [h0] at hr
      simp at hr
      omega
    rw [if_neg h0, if_neg (by omega), if_neg (by omega), if_neg (by omega), if_neg (by omega)]

namespace Machine

@[simp] theorem regName_one : regName 1#8 = .cmd := rfl
@[simp] theorem regName_five : regName 5#8 = .inLen := rfl

theorem regName_eq_cmd {n : BitVec 8} : regName n = .cmd ↔ n = 1 := by
  revert n
  decide

theorem regName_eq_inLen {n : BitVec 8} : regName n = .inLen ↔ n = 5 := by
  revert n
  decide

end Machine

end Sys2Proof
end

