-- ==== Sys2Proof/Laws/Header.lean ====
section
/-! SUPPORT. What HDR_PARSE answers, by the parts of its input, and what HDR_SER writes (44_header_codec.md). -/

namespace Sys2Proof.Machine

/-! ### The marker -/

theorem ones_succ (d : Nat) : ones (d + 1) = true :: ones d := rfl

theorem markerLength_ones (d : Nat) : markerLength (ones d) = d := by
  induction d with
  | zero => rfl
  | succ d ih => simp [ones_succ, markerLength, ih]

/-- The marker ends at the first 0 bit (44_header_codec.md R272). -/
theorem markerLength_ones_append (d : Nat) (rest : Bits) : markerLength (ones d ++ false :: rest) = d := by
  induction d with
  | zero => rfl
  | succ d ih => simp [ones_succ, markerLength, ih]

theorem markerLength_le (s : Bits) : markerLength s ≤ s.length := by
  induction s with
  | nil => exact Nat.le_refl 0
  | cons b s ih => cases b <;> simp [markerLength, ih]

/-- Every bit sequence is a marker, ended by a 0 bit or by its own end (44_header_codec.md R272). -/
theorem marker_split (s : Bits) :
    s = ones (markerLength s) ∨ ∃ rest, s = ones (markerLength s) ++ false :: rest := by
  induction s with
  | nil => exact .inl rfl
  | cons b s ih =>
    cases b with
    | false => exact .inr ⟨s, rfl⟩
    | true =>
      rcases ih with h | ⟨rest, h⟩
      · exact .inl (congrArg (true :: ·) h)
      · exact .inr ⟨rest, congrArg (true :: ·) h⟩

/-! ### The entries -/

/-- What step 4 answers when it succeeds (44_header_codec.md R273): `n` entries of the marker's width, the cursor behind
them, within the data bits. -/
theorem parseEntries_ok {bits : Bits} {depth e n c : Nat} {entries : List (Bits × Byte)} {c' : Nat}
    (he : e ≤ bits.length) (h : parseEntries bits depth e n c = .ok (entries, c')) :
    entries.length = n ∧ (∀ p ∈ entries, p.1.length = depth) ∧ c' = c + n * (depth + 8) ∧ (c ≤ e → c' ≤ e) := by
  induction n generalizing c entries c' with
  | zero =>
    simp [parseEntries] at h
    obtain ⟨rfl, rfl⟩ := h
    simp
  | succ n ih =>
    rw [parseEntries] at h
    split at h
    · cases h
    · rename_i hroom
      split at h
      · cases h
      · rename_i rest c'' hrest
        cases h
        obtain ⟨h1, h2, h3, h4⟩ := ih hrest
        refine ⟨by simp [h1], ?_, by rw [h3]; ring, fun _ => h4 (by omega)⟩
        intro p hp
        rcases List.mem_cons.mp hp with rfl | hp
        · rw [slice_length]; omega
        · exact h2 p hp

/-- Step 4 fails exactly by running short (44_header_codec.md R273). -/
theorem parseEntries_error {bits : Bits} {depth e n c : Nat} {x : Raise}
    (h : parseEntries bits depth e n c = .error x) : x = raiseAt .truncatedStream .header := by
  induction n generalizing c with
  | zero => simp [parseEntries] at h
  | succ n ih =>
    rw [parseEntries] at h
    split at h
    · exact (Except.error.inj h).symm
    · split at h
      · rename_i hr
        cases h
        exact ih hr
      · cases h

/-- Too few data bits for the entries (44_header_codec.md R273). -/
theorem parseEntries_short (bits : Bits) (depth e n c : Nat) (hc : c ≤ e) (h : e < c + n * (depth + 8)) :
    parseEntries bits depth e n c = .error (raiseAt .truncatedStream .header) := by
  induction n generalizing c with
  | zero => omega
  | succ n ih =>
    rw [parseEntries]
    split
    · rfl
    · rename_i hroom
      have hmul : (n + 1) * (depth + 8) = n * (depth + 8) + (depth + 8) := by ring
      rw [ih _ (by omega) (by omega)]

/-- Enough data bits for the entries (44_header_codec.md R273). -/
theorem parseEntries_room (bits : Bits) (depth e n c : Nat) (h : c + n * (depth + 8) ≤ e) :
    ∃ r, parseEntries bits depth e n c = .ok r := by
  induction n generalizing c with
  | zero => exact ⟨_, rfl⟩
  | succ n ih =>
    have hmul : (n + 1) * (depth + 8) = n * (depth + 8) + (depth + 8) := by ring
    obtain ⟨⟨rest, c'⟩, hr⟩ := ih (c + depth + 8) (by omega)
    rw [parseEntries, if_neg (by omega), hr]
    exact ⟨_, rfl⟩

/-- The bits of header entries in order (44_header_codec.md R263). -/
def entryBits (entries : List (Bits × Byte)) : Bits := entries.flatMap fun p => p.1 ++ bitsOfByte p.2

theorem entryBits_length (entries : List (Bits × Byte)) (depth : Nat) (h : ∀ p ∈ entries, p.1.length = depth) :
    (entryBits entries).length = entries.length * (depth + 8) := by
  induction entries with
  | nil => simp [entryBits]
  | cons p entries ih =>
    have hp := h p (List.mem_cons_self ..)
    have ih' := ih fun q hq => h q (List.mem_cons_of_mem _ hq)
    simp only [entryBits, List.flatMap_cons, List.length_append, bitsOfByte_length, List.length_cons] at ih' ⊢
    rw [ih', hp]
    ring

/-- Step 4 reads back the entries that were written (44_header_codec.md R273, R276). -/
theorem parseEntries_entryBits (entries : List (Bits × Byte)) (depth e : Nat) (front back : Bits)
    (h : ∀ p ∈ entries, p.1.length = depth) (he : front.length + entries.length * (depth + 8) ≤ e) :
    parseEntries (front ++ entryBits entries ++ back) depth e entries.length front.length =
      .ok (entries, front.length + entries.length * (depth + 8)) := by
  induction entries generalizing front with
  | nil => simp [parseEntries]
  | cons p entries ih =>
    obtain ⟨code, s⟩ := p
    have hc : code.length = depth := h (code, s) (List.mem_cons_self ..)
    have hmul : (entries.length + 1) * (depth + 8) = entries.length * (depth + 8) + (depth + 8) := by ring
    simp only [List.length_cons] at he ⊢
    have hbits : front ++ entryBits ((code, s) :: entries) ++ back =
        (front ++ (code ++ bitsOfByte s)) ++ entryBits entries ++ back := by simp [entryBits]
    have hfront : (front ++ (code ++ bitsOfByte s)).length = front.length + depth + 8 := by simp [hc]; omega
    have ih' := ih (front ++ (code ++ bitsOfByte s)) (fun q hq => h q (List.mem_cons_of_mem _ hq)) (by omega)
    rw [hfront] at ih'
    have hcode : slice (front ++ entryBits ((code, s) :: entries) ++ back) front.length (front.length + depth) =
        code := by
      rw [show front ++ entryBits ((code, s) :: entries) ++ back =
        front ++ code ++ (bitsOfByte s ++ entryBits entries ++ back) by simp [entryBits]]
      exact slice_append front code _ _ _ rfl (by omega)
    have hsym : slice (front ++ entryBits ((code, s) :: entries) ++ back) (front.length + depth)
        (front.length + depth + 8) = bitsOfByte s := by
      rw [show front ++ entryBits ((code, s) :: entries) ++ back =
        (front ++ code) ++ bitsOfByte s ++ (entryBits entries ++ back) by simp [entryBits]]
      exact slice_append (front ++ code) (bitsOfByte s) _ _ _ (by simp [hc]) (by simp)
    rw [parseEntries, if_neg (by omega), hcode, hsym, byteOfBits_bitsOfByte, hbits, ih']
    simp only [Except.ok.injEq, Prod.mk.injEq, true_and]
    omega

/-! ### The fields -/

/-- HDR_PARSE of a buffer cut into padding-count field, data bits and stripped padding (44_header_codec.md R270). -/
theorem parseHeader_split (p data tail : Bits) (hp : p.length = 3) (ht : tail.length = uintOf p) :
    parseHeader (p ++ data ++ tail) = parseFields (p ++ data ++ tail) (uintOf p) (3 + data.length) := by
  have h0 : slice (p ++ data ++ tail) 0 3 = p := by
    rw [List.append_assoc]
    exact slice_append_zero p _ 3 hp
  rw [parseHeader, h0]
  simp only [List.length_append, hp, ← ht]
  rw [if_neg (by omega), if_neg (by omega)]
  congr 1
  omega

/-- Steps 2 and 3 of data bits cut into count field and the rest (44_header_codec.md R271, R272). -/
theorem parseFields_split (p n rest tail : Bits) (pad : Nat) (hp : p.length = 3) (hn : n.length = 7) :
    parseFields (p ++ (n ++ rest) ++ tail) pad (3 + (n ++ rest).length) =
      if markerLength rest = rest.length then .error (raiseAt .malformedHeader .header)
      else if markerLength rest = 0 ∨ 127 < markerLength rest then .error (raiseAt .malformedHeader .header)
      else
        match parseEntries (p ++ (n ++ rest) ++ tail) (markerLength rest) (3 + (n ++ rest).length) (uintOf n)
          (10 + markerLength rest) with
        | .error r => .error r
        | .ok (entries, c) => .ok ⟨pad, uintOf n, markerLength rest, entries, c, 3 + (n ++ rest).length⟩ := by
  have h1 : slice (p ++ (n ++ rest) ++ tail) 3 10 = n := by
    rw [show p ++ (n ++ rest) ++ tail = p ++ n ++ (rest ++ tail) by simp]
    exact slice_append p n _ _ _ hp (by omega)
  have h2 : slice (p ++ (n ++ rest) ++ tail) 10 (3 + (n ++ rest).length) = rest := by
    rw [show p ++ (n ++ rest) ++ tail = (p ++ n) ++ rest ++ tail by simp]
    exact slice_append (p ++ n) rest _ _ _ (by simp [hp, hn]) (by simp [hn]; omega)
  have hlen : (n ++ rest).length = 7 + rest.length := by simp [hn]
  rw [parseFields, h1, h2, if_neg (by omega)]
  have hiff : (10 + markerLength rest = 3 + (n ++ rest).length) ↔ markerLength rest = rest.length := by omega
  by_cases hm : markerLength rest = rest.length
  · rw [if_pos (hiff.2 hm), if_pos hm]
  · rw [if_neg (mt hiff.1 hm), if_neg hm]
    try rfl

/-- What a successful HDR_PARSE says of its results (44_header_codec.md R266 to R274). -/
theorem parseHeader_ok {bits : Bits} {h : Header} (hh : parseHeader bits = .ok h) :
    h.pad < 8 ∧ h.count < 128 ∧ 1 ≤ h.depth ∧ h.depth ≤ 127 ∧ h.entries.length = h.count ∧
      (∀ p ∈ h.entries, p.1.length = h.depth) ∧ h.c = 10 + h.depth + h.count * (h.depth + 8) ∧
      h.c ≤ h.e ∧ 10 + h.depth < h.e ∧ h.e + h.pad = bits.length := by
  rw [parseHeader] at hh
  split at hh
  · cases hh
  · rename_i h3
    have hpadlt : uintOf (slice bits 0 3) < 8 := by
      have := uintOf_lt (slice bits 0 3)
      rw [slice_length, show min (3 - 0) (bits.length - 0) = 3 by omega] at this
      exact this
    simp only at hh
    split at hh
    · cases hh
    · rename_i hpad
      rw [parseFields] at hh
      split at hh
      · cases hh
      · rename_i h7
        have hcount : uintOf (slice bits 3 10) < 128 := by
          have := uintOf_lt (slice bits 3 10)
          rw [slice_length, show min (10 - 3) (bits.length - 3) = 7 by omega] at this
          exact this
        have hmark := markerLength_le (slice bits 10 (bits.length - uintOf (slice bits 0 3)))
        rw [slice_length] at hmark
        simp only at hh
        split at hh
        · cases hh
        · rename_i hend
          split at hh
          · cases hh
          · rename_i hdepth
            split at hh
            · cases hh
            · rename_i entries c hentries
              cases hh
              obtain ⟨h1, h2, h3', h4⟩ := parseEntries_ok (by omega) hentries
              have := h4 (by omega)
              dsimp only
              exact ⟨hpadlt, hcount, by omega, by omega, h1, h2, h3', this, by omega, by omega⟩

/-- HDR_PARSE fails with one of its two errors, stage HEADER (44_header_codec.md R266). -/
theorem parseHeader_error {bits : Bits} {x : Raise} (hh : parseHeader bits = .error x) :
    x = raiseAt .truncatedStream .header ∨ x = raiseAt .malformedHeader .header := by
  rw [parseHeader] at hh
  split at hh
  · exact .inl (Except.error.inj hh).symm
  · simp only at hh
    split at hh
    · exact .inl (Except.error.inj hh).symm
    · rw [parseFields] at hh
      split at hh
      · exact .inl (Except.error.inj hh).symm
      · simp only at hh
        split at hh
        · exact .inr (Except.error.inj hh).symm
        · split at hh
          · exact .inr (Except.error.inj hh).symm
          · split at hh
            · rename_i hr
              cases hh
              exact .inl (parseEntries_error hr)
            · cases hh

end Sys2Proof.Machine
end

