-- ==== Sys2Proof/Laws/Recon.lean ====
section
/-! SUPPORT. What RECON gives: the uniform tree of a code table, and its collapse (45_tree_reconstructor.md R290 to
R301). -/

namespace Sys2Proof.Machine

/-- A leaf `n` levels down a chain of left children (45_tree_reconstructor.md R295). -/
def leftChain (s : Byte) : Nat → Tree
  | 0 => .leaf s
  | n + 1 => .internal (leftChain s n) .absent

/-- A tree with every leaf moved down to depth `d` by left children: the uniform tree of its padded codes. -/
def uniformOf : Tree → Nat → Tree
  | .absent, _ => .absent
  | .leaf s, d => leftChain s d
  | .internal l r, 0 => .internal l r
  | .internal l r, d + 1 => .internal (uniformOf l d) (uniformOf r d)

/-- The entries inserted one after the other. -/
def insertAll (t : Tree) (entries : List (Bits × Byte)) : Tree :=
  entries.foldl (fun t p => insertCode t p.1 p.2) t

theorem uniformTree_eq (entries : List (Bits × Byte)) :
    uniformTree entries = insertAll (.internal .absent .absent) entries := rfl

theorem insertAll_append (t : Tree) (xs ys : List (Bits × Byte)) :
    insertAll t (xs ++ ys) = insertAll (insertAll t xs) ys := List.foldl_append ..

/-- Entries that all begin with the same bit go into that child. -/
theorem insertAll_map_cons (t : Tree) (b : Bool) (xs : List (Bits × Byte)) (h : xs ≠ []) :
    insertAll t (xs.map fun p => (b :: p.1, p.2)) =
      if b then .internal (leftChild t) (insertAll (rightChild t) xs)
      else .internal (insertAll (leftChild t) xs) (rightChild t) := by
  induction xs generalizing t with
  | nil => exact absurd rfl h
  | cons p xs ih =>
    have hstep : insertAll t ((p :: xs).map fun p => (b :: p.1, p.2)) =
        insertAll (insertCode t (b :: p.1) p.2) (xs.map fun p => (b :: p.1, p.2)) := rfl
    rw [hstep]
    cases xs with
    | nil => cases b <;> rfl
    | cons q xs =>
      rw [ih _ (by simp)]
      cases b <;> rfl

theorem insertCode_zeros (s : Byte) (d : Nat) : insertCode .absent (zeros d) s = leftChain s d := by
  induction d with
  | zero => rfl
  | succ d ih =>
    show Tree.internal (insertCode .absent (zeros d) s) .absent = _
    rw [ih, leftChain]

theorem paddedEntries_cons (xs : List (Byte × Bits)) (b : Bool) (d : Nat) :
    paddedEntries (xs.map fun p => (p.1, b :: p.2)) (d + 1) =
      (paddedEntries xs d).map fun p => (b :: p.1, p.2) := by
  simp [paddedEntries]

/-- The padded codes of a full tree, inserted from an empty place, give its uniform tree (45_tree_reconstructor.md
R291, R292). -/
theorem insertAll_paddedEntries {t : Tree} (h : FullTree t) (d : Nat) (hd : ∀ p ∈ visit t [], p.2.length ≤ d) :
    insertAll .absent (paddedEntries (visit t []) d) = uniformOf t d := by
  induction t generalizing d with
  | absent => exact absurd h (by simp [FullTree])
  | leaf s => simpa [paddedEntries, visit, insertAll, uniformOf] using insertCode_zeros s d
  | internal l r ihl ihr =>
    rw [visit_internal] at hd ⊢
    obtain ⟨p, hp⟩ := List.exists_mem_of_ne_nil _ (visit_ne_nil h.1)
    have hd1 := hd (p.1, false :: p.2) (List.mem_append_left _ (List.mem_map.mpr ⟨p, hp, rfl⟩))
    obtain ⟨d, rfl⟩ : ∃ e, d = e + 1 := ⟨d - 1, by simp at hd1; omega⟩
    have hl := ihl h.1 d fun q hq => by
      simpa using hd (q.1, false :: q.2) (List.mem_append_left _ (List.mem_map.mpr ⟨q, hq, rfl⟩))
    have hr := ihr h.2 d fun q hq => by
      simpa using hd (q.1, true :: q.2) (List.mem_append_right _ (List.mem_map.mpr ⟨q, hq, rfl⟩))
    have hnl : paddedEntries (visit l []) d ≠ [] := by simpa [paddedEntries] using visit_ne_nil h.1
    have hnr : paddedEntries (visit r []) d ≠ [] := by simpa [paddedEntries] using visit_ne_nil h.2
    rw [paddedEntries, List.map_append, ← paddedEntries, ← paddedEntries, paddedEntries_cons, paddedEntries_cons,
      insertAll_append, insertAll_map_cons _ _ _ hnl, insertAll_map_cons _ _ _ hnr]
    simp [leftChild, rightChild, hl, hr, uniformOf]

/-- The entries of an Internal node do not tell an empty root from an absent one. -/
theorem insertAll_root (l r : Tree) (h : FullTree (.internal l r)) (d : Nat) :
    insertAll (.internal .absent .absent) (paddedEntries (visit (.internal l r) []) (d + 1)) =
      insertAll .absent (paddedEntries (visit (.internal l r) []) (d + 1)) := by
  have hnl : paddedEntries (visit l []) d ≠ [] := by simpa [paddedEntries] using visit_ne_nil h.1
  rw [visit_internal, paddedEntries, List.map_append, ← paddedEntries, paddedEntries_cons, insertAll_append,
    insertAll_append, insertAll_map_cons _ _ _ hnl, insertAll_map_cons _ _ _ hnl]
  rfl

theorem descend_leftChain (s : Byte) (n : Nat) : descend (leftChain s n) = .ok s := by
  induction n with
  | zero => rfl
  | succ n ih => exact ih

theorem leftChain_ne_absent (s : Byte) (n : Nat) : leftChain s n ≠ .absent := by cases n <;> simp [leftChain]

theorem uniformOf_ne_absent {t : Tree} (h : FullTree t) (d : Nat) : uniformOf t d ≠ .absent := by
  cases t with
  | absent => exact absurd h (by simp [FullTree])
  | leaf s => exact leftChain_ne_absent s d
  | internal l r => cases d <;> simp [uniformOf]

/-- An Internal node with both children is kept (45_tree_reconstructor.md R297). -/
theorem collapse_both {l r l' r' : Tree} (isRoot : Bool) (hr : r ≠ .absent) (hl' : collapse l false = .ok l')
    (hr' : collapse r false = .ok r') : collapse (.internal l r) isRoot = .ok (.internal l' r') := by
  simp [collapse, hr, hl', hr']

/-- The collapse of the uniform tree gives the tree back (45_tree_reconstructor.md R301). -/
theorem collapse_uniformOf {t : Tree} (h : FullTree t) (d : Nat) (hd : ∀ p ∈ visit t [], p.2.length ≤ d) :
    collapse (uniformOf t d) false = .ok t := by
  induction t generalizing d with
  | absent => exact absurd h (by simp [FullTree])
  | leaf s =>
    cases d with
    | zero => rfl
    | succ d => simp [uniformOf, leftChain, collapse, leftChain_ne_absent, descend_leftChain]
  | internal l r ihl ihr =>
    rw [visit_internal] at hd
    obtain ⟨p, hp⟩ := List.exists_mem_of_ne_nil _ (visit_ne_nil h.1)
    have hd1 := hd (p.1, false :: p.2) (List.mem_append_left _ (List.mem_map.mpr ⟨p, hp, rfl⟩))
    obtain ⟨d, rfl⟩ : ∃ e, d = e + 1 := ⟨d - 1, by simp at hd1; omega⟩
    refine collapse_both false (uniformOf_ne_absent h.2 d) (ihl h.1 d fun q hq => ?_) (ihr h.2 d fun q hq => ?_)
    · simpa using hd (q.1, false :: q.2) (List.mem_append_left _ (List.mem_map.mpr ⟨q, hq, rfl⟩))
    · simpa using hd (q.1, true :: q.2) (List.mem_append_right _ (List.mem_map.mpr ⟨q, hq, rfl⟩))

/-- DESCEND and COLLAPSE fail with InvalidPathError, stage TREE, only (45_tree_reconstructor.md R296). -/
theorem descend_error {t : Tree} {x : Raise} (h : descend t = .error x) : x = raiseAt .invalidPath .tree := by
  induction t with
  | absent => exact (Except.error.inj h).symm
  | leaf s => cases h
  | internal l r ihl _ => exact ihl h

theorem collapse_error {t : Tree} {isRoot : Bool} {x : Raise} (h : collapse t isRoot = .error x) :
    x = raiseAt .invalidPath .tree := by
  induction t generalizing isRoot with
  | absent => cases h
  | leaf s => cases h
  | internal l r ihl ihr =>
    rw [collapse] at h
    split at h
    · split at h
      · rename_i hd
        cases h
        exact descend_error hd
      · cases h
    · split at h
      · rename_i hl
        cases h
        exact ihl hl
      · split at h
        · rename_i hr
          cases h
          exact ihr hr
        · cases h

end Sys2Proof.Machine
end

