-- ==== Sys2Proof/Laws/Walk.lean ====
section
/-! SUPPORT. What WALK answers over the codes of a tree, and the errors it can end with (47_payload_codec.md R334 to
R338). -/

namespace Sys2Proof.Machine

/-- Over the path to a leaf the walk emits the leaf's symbol and starts again at the root (47_payload_codec.md R337,
R338). -/
theorem walk_path (root : Tree) (maxOut : Nat) (t : Tree) (s : Byte) (c rest : Bits) (k : Nat) (hc : c ≠ [])
    (h : (s, c) ∈ visit t []) :
    walk root maxOut (c ++ rest) t k =
      if k = maxOut then .error (raiseAt .outputOverflow .output)
      else
        match walk root maxOut rest root (k + 1) with
        | .error r => .error r
        | .ok out => .ok (s :: out) := by
  induction t generalizing c with
  | absent => cases h
  | leaf s' => simp [visit] at h; exact absurd h.2 hc
  | internal l r ihl ihr =>
    have child : ∀ (b : Bool) (u : Tree) (c' : Bits), childAt (.internal l r) b = u → c = b :: c' →
        (s, c') ∈ visit u [] → (c' ≠ [] → (s, c') ∈ visit u [] →
          walk root maxOut (c' ++ rest) u k =
            if k = maxOut then .error (raiseAt .outputOverflow .output)
            else
              match walk root maxOut rest root (k + 1) with
              | .error r => .error r
              | .ok out => .ok (s :: out)) →
        walk root maxOut (c ++ rest) (.internal l r) k =
          if k = maxOut then .error (raiseAt .outputOverflow .output)
          else
            match walk root maxOut rest root (k + 1) with
            | .error r => .error r
            | .ok out => .ok (s :: out) := by
      intro b u c' hu hcb hmem ih
      subst hcb
      rw [List.cons_append, walk, hu]
      cases u with
      | absent => cases hmem
      | leaf s' =>
        simp [visit] at hmem
        obtain ⟨rfl, rfl⟩ := hmem
        rfl
      | internal l' r' =>
        refine ih ?_ hmem
        rintro rfl
        rw [visit_internal] at hmem
        rcases List.mem_append.mp hmem with hm | hm <;> obtain ⟨q, -, hq⟩ := List.mem_map.mp hm <;> simp at hq
    rw [visit_internal] at h
    rcases List.mem_append.mp h with hm | hm
    · obtain ⟨q, hq, heq⟩ := List.mem_map.mp hm
      simp only [Prod.mk.injEq] at heq
      obtain ⟨rfl, rfl⟩ := heq
      exact child false l q.2 rfl rfl hq fun hne hmem => ihl q.2 hne hmem
    · obtain ⟨q, hq, heq⟩ := List.mem_map.mp hm
      simp only [Prod.mk.injEq] at heq
      obtain ⟨rfl, rfl⟩ := heq
      exact child true r q.2 rfl rfl hq fun hne hmem => ihr q.2 hne hmem

/-- Over the codes of symbols the walk emits the symbols, as far as they fit, and goes on behind them
(47_payload_codec.md R330, R337, R338). -/
theorem walk_encodePayload {root : Tree} (maxOut : Nat) (table : List (Byte × Bits)) (syms : List Byte) (rest : Bits)
    (k : Nat) (hk : k ≤ maxOut)
    (h : ∀ s ∈ syms, (s, codeOf table s) ∈ visit root [] ∧ codeOf table s ≠ []) :
    walk root maxOut (encodePayload table syms ++ rest) root k =
      if k + syms.length ≤ maxOut then
        match walk root maxOut rest root (k + syms.length) with
        | .error r => .error r
        | .ok out => .ok (syms ++ out)
      else .error (raiseAt .outputOverflow .output) := by
  induction syms generalizing k with
  | nil =>
    simp only [encodePayload, List.flatMap_nil, List.nil_append, List.length_nil, Nat.add_zero, hk, if_true]
    split <;> simp_all
  | cons s syms ih =>
    obtain ⟨hm, hne⟩ := h s (List.mem_cons_self ..)
    rw [encodePayload, List.flatMap_cons, List.append_assoc, walk_path root maxOut root s _ _ k hne hm]
    by_cases hkm : k = maxOut
    · rw [if_pos hkm, if_neg (by simp; omega)]
    · have := ih (k + 1) (by omega) fun t ht => h t (List.mem_cons_of_mem _ ht)
      rw [encodePayload] at this
      rw [if_neg hkm, this, List.length_cons, show k + (syms.length + 1) = k + 1 + syms.length by omega]
      by_cases hle : k + 1 + syms.length ≤ maxOut
      · rw [if_pos hle, if_pos hle]
        cases walk root maxOut rest root (k + 1 + syms.length) <;> rfl
      · rw [if_neg hle, if_neg hle]

/-- Bits that end inside the path to a leaf end the walk with UnexpectedEndOfStreamError (47_payload_codec.md R335). -/
theorem walk_inside (root : Tree) (maxOut : Nat) (t : Tree) (s : Byte) (p q : Bits) (k : Nat)
    (hq : q ≠ []) (h : (s, p ++ q) ∈ visit t []) (hsz : p ≠ [] → sizeOf t ≤ sizeOf root) (h0 : p = [] → t ≠ root) :
    walk root maxOut p t k = .error (raiseAt .unexpectedEndOfStream .payload) := by
  induction p generalizing t with
  | nil => rw [walk, if_neg (h0 rfl)]
  | cons b p ih =>
    have hsz := hsz (by simp)
    cases t with
    | absent => cases h
    | leaf s' => simp [visit] at h
    | internal l r =>
      have : ∃ u, childAt (.internal l r) b = u ∧ (s, p ++ q) ∈ visit u [] ∧ sizeOf u < sizeOf (Tree.internal l r) := by
        rw [visit_internal] at h
        rcases List.mem_append.mp h with hm | hm <;> obtain ⟨x, hx, heq⟩ := List.mem_map.mp hm <;>
          obtain ⟨x1, x2⟩ := x <;> simp only [List.cons_append, Prod.mk.injEq, List.cons.injEq] at heq <;>
          obtain ⟨rfl, rfl, rfl⟩ := heq
        · exact ⟨l, rfl, hx, by rw [Tree.internal.sizeOf_spec]; omega⟩
        · exact ⟨r, rfl, hx, by rw [Tree.internal.sizeOf_spec]; omega⟩
      obtain ⟨u, hu, hm, hs⟩ := this
      rw [walk, hu]
      cases u with
      | absent => cases hm
      | leaf s' => simp [visit] at hm; exact absurd hm.2.2 hq
      | internal l' r' => exact ih _ hm (fun _ => by omega) (fun _ hc => by rw [hc] at hs; omega)

/-- The walk ends with one of its three errors only (47_payload_codec.md R334). -/
theorem walk_error {root : Tree} {maxOut : Nat} {bits : Bits} {node : Tree} {k : Nat} {x : Raise}
    (h : walk root maxOut bits node k = .error x) :
    x = raiseAt .invalidPath .payload ∨ x = raiseAt .unexpectedEndOfStream .payload ∨
      x = raiseAt .outputOverflow .output := by
  induction bits generalizing node k with
  | nil =>
    rw [walk] at h
    split at h
    · cases h
    · exact .inr (.inl (Except.error.inj h).symm)
  | cons b bits ih =>
    rw [walk] at h
    split at h
    · exact .inl (Except.error.inj h).symm
    · split at h
      · exact .inr (.inr (Except.error.inj h).symm)
      · split at h
        · rename_i hr
          cases h
          exact ih hr
        · cases h
    · exact ih h

/-- The walk emits at most one symbol per bit, and no more than fit (47_payload_codec.md R337, R338). -/
theorem walk_ok_length {root : Tree} {maxOut : Nat} {bits : Bits} {node : Tree} {k : Nat} {out : List Byte}
    (hk : k ≤ maxOut) (h : walk root maxOut bits node k = .ok out) :
    out.length ≤ bits.length ∧ k + out.length ≤ maxOut := by
  induction bits generalizing node k out with
  | nil =>
    rw [walk] at h
    split at h
    · cases h; simpa using hk
    · cases h
  | cons b bits ih =>
    rw [walk] at h
    split at h
    · cases h
    · split at h
      · cases h
      · split at h
        · cases h
        · rename_i hne out' hr
          cases h
          have := ih (by omega) hr
          simp only [List.length_cons]
          omega
    · have := ih hk h
      simp only [List.length_cons]
      omega

end Sys2Proof.Machine
end

