-- ==== Sys2Proof/Laws/Engine.lean ====
section
/-! SUPPORT. What the engine step comes to: the errors an operation can end with, and the bounds of a success
(48_commands.md R352 to R360). -/

namespace Sys2Proof.Machine

theorem headerEntry_length {depth : Nat} {p : Byte × Bits} (h : p.2.length ≤ depth) :
    (headerEntry depth p).length = depth + 8 := by
  simp [headerEntry]
  omega

/-- The header without its padding-count field has 7 + depth + count * (depth + 8) bits (44_header_codec.md R265). -/
theorem serializeHeader_length (table : List (Byte × Bits)) (depth : Nat) (h : ∀ p ∈ table, p.2.length ≤ depth) :
    (serializeHeader table depth).length = 7 + depth + table.length * (depth + 8) := by
  have : (table.flatMap (headerEntry depth)).length = table.length * (depth + 8) := by
    induction table with
    | nil => simp
    | cons p table ih =>
      rw [List.flatMap_cons, List.length_append, headerEntry_length (h p (List.mem_cons_self ..)),
        ih fun q hq => h q (List.mem_cons_of_mem _ hq), List.length_cons]
      ring
  simp [serializeHeader, this, Nat.add_assoc]

theorem encodePayload_length_le (table : List (Byte × Bits)) (syms : List Byte) (d : Nat)
    (h : ∀ s ∈ syms, (codeOf table s).length ≤ d) : (encodePayload table syms).length ≤ d * syms.length := by
  induction syms with
  | nil => simp [encodePayload]
  | cons s syms ih =>
    have h1 := h s (List.mem_cons_self ..)
    have h2 := ih fun t ht => h t (List.mem_cons_of_mem _ ht)
    rw [encodePayload] at h2 ⊢
    rw [List.flatMap_cons, List.length_append, List.length_cons, Nat.mul_succ]
    omega

/-- The length of a code looked up is at most the depth (43_code_table.md R244). -/
theorem codeOf_length_le (table : List (Byte × Bits)) (s : Byte) : (codeOf table s).length ≤ codeDepth table := by
  induction table with
  | nil => simp [codeOf, codeDepth]
  | cons p table ih =>
    obtain ⟨s', c⟩ := p
    rw [codeOf, List.lookup_cons]
    cases s == s' with
    | true => exact Nat.le_max_left _ _
    | false => exact le_trans ih (Nat.le_max_right _ _)

/-! ### ENCODE -/

/-- Of a valid input ENCODE makes a full tree with the input's symbols as its leaves, and ends with the packed stream
(41_frequency_analyzer.md, 42_tree_builder.md R227, 43_code_table.md R247). -/
theorem encodeChars_valid {chars : List Word} (maxOut : Nat) (h : ValidChars chars) :
    let root := build (freqTable (chars.map symbolOf))
    FullTree root ∧ ((codeTable root).map Prod.fst).Perm (chars.map symbolOf).dedup ∧
      encodeChars maxOut chars = encodeSymbols maxOut (chars.map symbolOf) root := by
  have hfreq : freq chars = .ok (freqTable (chars.map symbolOf)) := freq_ok.mpr ⟨h, rfl⟩
  have hne : freqTable (chars.map symbolOf) ≠ [] := by
    obtain ⟨ch, hch⟩ := List.exists_mem_of_ne_nil _ h.1
    intro h0
    have := (mem_freqTable_symbols (chars.map symbolOf) (symbolOf ch)).mpr (List.mem_map.mpr ⟨ch, hch, rfl⟩)
    rw [h0] at this
    cases this
  obtain ⟨hfull, hperm, -⟩ := build_spec _ hne
  refine ⟨hfull, ?_, by rw [encodeChars, hfreq]⟩
  rw [codeTable_symbols]
  exact hperm.trans (freqTable_symbols_perm _)

/-- The code table of a tree whose leaves are the distinct symbols of an input (43_code_table.md R244, R249). -/
theorem encodeTable_bounds {root : Tree} {syms : List Byte} (hf : FullTree root)
    (hp : ((codeTable root).map Prod.fst).Perm syms.dedup) (hlt : syms.dedup.length < 128) :
    (codeTable root).length ≤ 127 ∧ codeDepth (codeTable root) ≤ 126 ∧ 1 ≤ codeDepth (codeTable root) ∧
      ((codeTable root).map Prod.fst).Nodup ∧ ∀ s ∈ syms, s ∈ (codeTable root).map Prod.fst := by
  have hlen := hp.length_eq
  rw [List.length_map] at hlen
  obtain ⟨-, -, -, h1, h2⟩ := codeTable_spec hf
  refine ⟨by omega, by omega, h1, hp.nodup_iff.mpr (List.nodup_dedup _), fun s hs => ?_⟩
  exact hp.mem_iff.mpr (List.mem_dedup.mpr hs)

/-- What CODES to PACK answer (46_bitstream_packer.md R314; 48_commands.md R356). -/
theorem encodeSymbols_cases (maxOut : Nat) (syms : List Byte) (root : Tree) :
    let table := codeTable root
    let depth := codeDepth table
    let hdr := serializeHeader table depth
    let pay := encodePayload table syms
    (maxOut < (streamBits hdr pay).length / 8 ∧
      encodeSymbols maxOut syms root = .error (raiseAt .outputOverflow .output)) ∨
    ((streamBits hdr pay).length / 8 ≤ maxOut ∧
      ∃ out, encodeSymbols maxOut syms root =
          .ok ⟨out, paddingBits (unpaddedLength hdr pay), table.length, depth, 3 + hdr.length, pay.length⟩ ∧
        out.length = (streamBits hdr pay).length / 8 ∧ unpack out = streamBits hdr pay) := by
  dsimp only
  rcases pack_cases maxOut (serializeHeader (codeTable root) (codeDepth (codeTable root)))
    (encodePayload (codeTable root) syms) with ⟨h1, h2⟩ | ⟨h1, out, h2, h3, h4⟩
  · exact .inl ⟨h1, by simp [encodeSymbols, h2]⟩
  · exact .inr ⟨h1, out, by simp [encodeSymbols, h2], h3, h4⟩

/-- A successful ENCODE had a valid input (41_frequency_analyzer.md R200). -/
theorem encodeChars_ok_valid {maxOut : Nat} {chars : List Word} {r : Success} (h : encodeChars maxOut chars = .ok r) :
    ValidChars chars := by
  unfold encodeChars at h
  split at h
  · cases h
  · rename_i hf
    exact (freq_ok.mp hf).1

/-- The errors an operation ends with (60_exceptions.md R401; IllegalCommandError never comes from the engine). -/
def engineErrors : List (ErrorName × Stage) :=
  [(.emptyInput, .input), (.unsupportedSymbol, .input), (.alphabetTooLarge, .input), (.malformedHeader, .header),
    (.truncatedStream, .header), (.invalidPath, .tree), (.invalidPath, .payload), (.unexpectedEndOfStream, .payload),
    (.outputOverflow, .output), (.inputLength, .command)]

theorem encodeChars_error {maxOut : Nat} {chars : List Word} {x : Raise} (h : encodeChars maxOut chars = .error x) :
    (x.error, x.stage) ∈ engineErrors := by
  unfold encodeChars at h
  split at h
  · rename_i hf
    cases h
    obtain ⟨h1, h2 | h2 | h2⟩ := freq_error hf <;> simp [engineErrors, h1, h2]
  · rcases encodeSymbols_cases maxOut (chars.map symbolOf) (build _) with ⟨-, he⟩ | ⟨-, out, he, -⟩
    · rw [he] at h
      cases h
      simp [engineErrors, raiseAt]
    · rw [he] at h
      cases h

/-! ### DECODE -/

theorem decodeBytes_error {maxOut : Nat} {bytes : List Byte} {x : Raise} (h : decodeBytes maxOut bytes = .error x) :
    (x.error, x.stage) ∈ engineErrors := by
  unfold decodeBytes at h
  split at h
  · rename_i hp
    cases h
    rcases parseHeader_error hp with rfl | rfl <;> simp [engineErrors, raiseAt]
  · unfold decodeParsed at h
    split at h
    · rename_i hr
      cases h
      rw [collapse_error hr]
      simp [engineErrors, raiseAt]
    · split at h
      · rename_i hw
        cases h
        rcases walk_error hw with rfl | rfl | rfl <;> simp [engineErrors, raiseAt]
      · cases h

/-- The bounds of a successful DECODE (44_header_codec.md R266 to R274; 47_payload_codec.md R337). -/
theorem decodeBytes_ok {maxOut : Nat} {bytes : List Byte} {r : Success} (h : decodeBytes maxOut bytes = .ok r) :
    r.pad < 8 ∧ r.count < 128 ∧ r.depth < 128 ∧ r.out.length ≤ maxOut ∧ r.out.length ≤ 8 * bytes.length ∧
      r.hdrBits = 10 + r.depth + r.count * (r.depth + 8) ∧ r.hdrBits + r.payloadBits + r.pad = 8 * bytes.length := by
  unfold decodeBytes at h
  split at h
  · cases h
  · rename_i hd hp
    obtain ⟨h1, h2, -, h4, -, -, h7, h8, -, h10⟩ := parseHeader_ok hp
    rw [unpack_length] at h10
    unfold decodeParsed at h
    split at h
    · cases h
    · split at h
      · cases h
      · rename_i out hw
        cases h
        obtain ⟨h11, h12⟩ := walk_ok_length (Nat.zero_le _) hw
        rw [slice_length, unpack_length] at h11
        dsimp only
        refine ⟨h1, h2, by omega, by omega, by omega, h7, by omega⟩

/-- A stage of DECODE that fails is the answer of the operation, whatever the later stages would give (60_exceptions.md R405,
R407). -/
theorem decodeBytes_header_error {maxOut : Nat} {bytes : List Byte} {x : Raise}
    (h : parseHeader (unpack bytes) = .error x) : decodeBytes maxOut bytes = .error x := by
  simp [decodeBytes, h]

theorem decodeBytes_tree_error {maxOut : Nat} {bytes : List Byte} {hd : Header} {x : Raise}
    (hp : parseHeader (unpack bytes) = .ok hd) (h : reconstruct hd.entries = .error x) :
    decodeBytes maxOut bytes = .error x := by
  simp [decodeBytes, hp, decodeParsed, h]

theorem decodeBytes_walk_error {maxOut : Nat} {bytes : List Byte} {hd : Header} {root : Tree} {x : Raise}
    (hp : parseHeader (unpack bytes) = .ok hd) (hr : reconstruct hd.entries = .ok root)
    (h : walk root maxOut (slice (unpack bytes) hd.c hd.e) root 0 = .error x) :
    decodeBytes maxOut bytes = .error x := by
  simp [decodeBytes, hp, decodeParsed, hr, h]

/-! ### Both -/

/-- Behind the input-length check an operation is its stages (48_commands.md R352, R356, R357). -/
theorem engineResult_encode {s : State} (h : s.inLen.toNat ≤ s.params.maxIn) :
    engineResult .encode s = encodeChars s.params.maxOut (inputChars s) := by
  rw [engineResult, if_neg (by omega)]

theorem engineResult_decode {s : State} (h : s.inLen.toNat ≤ s.params.maxIn) :
    engineResult .decode s = decodeBytes s.params.maxOut (inputBytes s) := by
  rw [engineResult, if_neg (by omega)]

/-- Every error of the engine is one of the listed pairs (60_exceptions.md R401). -/
theorem engineResult_error {op : Op} {s : State} {x : Raise} (h : engineResult op s = .error x) :
    (x.error, x.stage) ∈ engineErrors := by
  unfold engineResult at h
  split at h
  · cases h
    simp [engineErrors, raiseAt]
  · cases op with
    | encode => exact encodeChars_error h
    | decode => exact decodeBytes_error h

/-- The bounds of a success: the widths of the result registers, the size of OUT_MEM, and the header length
(10_state.md R43, R45, R46). -/
theorem engineResult_ok {op : Op} {s : State} {r : Success} (h : engineResult op s = .ok r) :
    s.inLen.toNat ≤ s.params.maxIn ∧ r.pad < 8 ∧ r.count < 128 ∧ r.depth < 128 ∧ r.out.length ≤ s.params.maxOut ∧
      r.hdrBits = 10 + r.depth + r.count * (r.depth + 8) := by
  unfold engineResult at h
  split at h
  · cases h
  · rename_i hin
    refine ⟨by omega, ?_⟩
    cases op with
    | decode =>
      obtain ⟨h1, h2, h3, h4, -, h6, -⟩ := decodeBytes_ok h
      exact ⟨h1, h2, h3, h4, h6⟩
    | encode =>
      have hv := encodeChars_ok_valid h
      obtain ⟨hf, hp, he⟩ := encodeChars_valid s.params.maxOut hv
      obtain ⟨hl, hd, -⟩ := encodeTable_bounds hf hp hv.2.2
      dsimp only at h
      rw [he] at h
      rcases encodeSymbols_cases s.params.maxOut ((inputChars s).map symbolOf) _ with ⟨-, h2⟩ | ⟨h1, out, h2, h3, -⟩
      · rw [h2] at h
        cases h
      · rw [h2] at h
        cases h
        dsimp only
        refine ⟨(paddingBits_spec _).1, by omega, by omega, by omega, ?_⟩
        rw [serializeHeader_length _ _ fun p hp => codeDepth_ge hp]
        omega

end Sys2Proof.Machine
end

