-- ==== Sys2Proof/Laws/State.lean ====
section
/-! SUPPORT. One lemma per field of State and per named update: what the update leaves in that field. -/

namespace Sys2Proof.Machine

variable (s : State)

/-! ### `clearReport` -/

@[simp] theorem clearReport_params : (clearReport s).params = s.params := rfl
@[simp] theorem clearReport_status : (clearReport s).status = s.status := rfl
@[simp] theorem clearReport_errCode : (clearReport s).errCode = 0 := rfl
@[simp] theorem clearReport_errIndex : (clearReport s).errIndex = 0 := rfl
@[simp] theorem clearReport_inLen : (clearReport s).inLen = s.inLen := rfl
@[simp] theorem clearReport_outLen : (clearReport s).outLen = 0 := rfl
@[simp] theorem clearReport_resPad : (clearReport s).resPad = 0 := rfl
@[simp] theorem clearReport_resCount : (clearReport s).resCount = 0 := rfl
@[simp] theorem clearReport_resDepth : (clearReport s).resDepth = 0 := rfl
@[simp] theorem clearReport_resHdrBits : (clearReport s).resHdrBits = 0 := rfl
@[simp] theorem clearReport_resPayloadBits : (clearReport s).resPayloadBits = 0 := rfl
@[simp] theorem clearReport_inMem : (clearReport s).inMem = s.inMem := rfl
@[simp] theorem clearReport_outMem : (clearReport s).outMem = s.outMem := rfl
@[simp] theorem clearReport_engine : (clearReport s).engine = s.engine := rfl
@[simp] theorem clearReport_draws : (clearReport s).draws = s.draws := rfl
@[simp] theorem clearReport_inDraw : (clearReport s).inDraw = s.inDraw := rfl
@[simp] theorem clearReport_outDraw : (clearReport s).outDraw = s.outDraw := rfl
@[simp] theorem clearReport_engineWait : (clearReport s).engineWait = s.engineWait := rfl
@[simp] theorem clearReport_pending : (clearReport s).pending = s.pending := rfl
@[simp] theorem clearReport_replies : (clearReport s).replies = s.replies := rfl

/-! ### `accept` -/

@[simp] theorem accept_params (op : Op) : (accept op s).params = s.params := rfl
@[simp] theorem accept_status (op : Op) : (accept op s).status = statusAccepted s.status := rfl
@[simp] theorem accept_errCode (op : Op) : (accept op s).errCode = 0 := rfl
@[simp] theorem accept_errIndex (op : Op) : (accept op s).errIndex = 0 := rfl
@[simp] theorem accept_inLen (op : Op) : (accept op s).inLen = s.inLen := rfl
@[simp] theorem accept_outLen (op : Op) : (accept op s).outLen = 0 := rfl
@[simp] theorem accept_resPad (op : Op) : (accept op s).resPad = 0 := rfl
@[simp] theorem accept_resCount (op : Op) : (accept op s).resCount = 0 := rfl
@[simp] theorem accept_resDepth (op : Op) : (accept op s).resDepth = 0 := rfl
@[simp] theorem accept_resHdrBits (op : Op) : (accept op s).resHdrBits = 0 := rfl
@[simp] theorem accept_resPayloadBits (op : Op) : (accept op s).resPayloadBits = 0 := rfl
@[simp] theorem accept_inMem (op : Op) : (accept op s).inMem = s.inMem := rfl
@[simp] theorem accept_outMem (op : Op) : (accept op s).outMem = s.outMem := rfl
@[simp] theorem accept_engine (op : Op) : (accept op s).engine = .busy op := rfl
@[simp] theorem accept_draws (op : Op) : (accept op s).draws = s.draws + 1 := rfl
@[simp] theorem accept_inDraw (op : Op) : (accept op s).inDraw = s.inDraw := rfl
@[simp] theorem accept_outDraw (op : Op) : (accept op s).outDraw = s.outDraw := rfl
@[simp] theorem accept_engineWait (op : Op) : (accept op s).engineWait = Config.engineLatency s.draws := rfl
@[simp] theorem accept_pending (op : Op) : (accept op s).pending = s.pending := rfl
@[simp] theorem accept_replies (op : Op) : (accept op s).replies = s.replies := rfl

/-! ### `finish` -/

@[simp] theorem finish_params (r : Success) : (finish r s).params = s.params := rfl
@[simp] theorem finish_status (r : Success) : (finish r s).status = statusSucceeded s.status := rfl
@[simp] theorem finish_errCode (r : Success) : (finish r s).errCode = s.errCode := rfl
@[simp] theorem finish_errIndex (r : Success) : (finish r s).errIndex = s.errIndex := rfl
@[simp] theorem finish_inLen (r : Success) : (finish r s).inLen = s.inLen := rfl
@[simp] theorem finish_outLen (r : Success) : (finish r s).outLen = BitVec.ofNat 32 r.out.length := rfl
@[simp] theorem finish_resPad (r : Success) : (finish r s).resPad = BitVec.ofNat 32 r.pad := rfl
@[simp] theorem finish_resCount (r : Success) : (finish r s).resCount = BitVec.ofNat 32 r.count := rfl
@[simp] theorem finish_resDepth (r : Success) : (finish r s).resDepth = BitVec.ofNat 32 r.depth := rfl
@[simp] theorem finish_resHdrBits (r : Success) : (finish r s).resHdrBits = BitVec.ofNat 32 r.hdrBits := rfl
@[simp] theorem finish_resPayloadBits (r : Success) : (finish r s).resPayloadBits = BitVec.ofNat 32 r.payloadBits := rfl
@[simp] theorem finish_inMem (r : Success) : (finish r s).inMem = s.inMem := rfl
@[simp] theorem finish_outMem (r : Success) : (finish r s).outMem = Memory.writeFrom s.outMem 0 r.out := rfl
@[simp] theorem finish_engine (r : Success) : (finish r s).engine = .idle := rfl
@[simp] theorem finish_draws (r : Success) : (finish r s).draws = s.draws := rfl
@[simp] theorem finish_inDraw (r : Success) : (finish r s).inDraw = s.inDraw := rfl
@[simp] theorem finish_outDraw (r : Success) : (finish r s).outDraw = s.outDraw := rfl
@[simp] theorem finish_engineWait (r : Success) : (finish r s).engineWait = 0 := rfl
@[simp] theorem finish_pending (r : Success) : (finish r s).pending = s.pending := rfl
@[simp] theorem finish_replies (r : Success) : (finish r s).replies = s.replies := rfl

/-! ### `raiseError` -/

@[simp] theorem raiseError_params (x : Raise) : (raiseError x s).params = s.params := rfl
@[simp] theorem raiseError_status (x : Raise) : (raiseError x s).status = statusFailed s.status := rfl
@[simp] theorem raiseError_errCode (x : Raise) : (raiseError x s).errCode = errCodeWord x.error x.stage := rfl
@[simp] theorem raiseError_errIndex (x : Raise) : (raiseError x s).errIndex = errIndexWord x := rfl
@[simp] theorem raiseError_inLen (x : Raise) : (raiseError x s).inLen = s.inLen := rfl
@[simp] theorem raiseError_outLen (x : Raise) : (raiseError x s).outLen = 0 := rfl
@[simp] theorem raiseError_resPad (x : Raise) : (raiseError x s).resPad = 0 := rfl
@[simp] theorem raiseError_resCount (x : Raise) : (raiseError x s).resCount = 0 := rfl
@[simp] theorem raiseError_resDepth (x : Raise) : (raiseError x s).resDepth = 0 := rfl
@[simp] theorem raiseError_resHdrBits (x : Raise) : (raiseError x s).resHdrBits = 0 := rfl
@[simp] theorem raiseError_resPayloadBits (x : Raise) : (raiseError x s).resPayloadBits = 0 := rfl
@[simp] theorem raiseError_inMem (x : Raise) : (raiseError x s).inMem = s.inMem := rfl
@[simp] theorem raiseError_outMem (x : Raise) : (raiseError x s).outMem = [] := rfl
@[simp] theorem raiseError_engine (x : Raise) : (raiseError x s).engine = .idle := rfl
@[simp] theorem raiseError_draws (x : Raise) : (raiseError x s).draws = s.draws + 1 := rfl
@[simp] theorem raiseError_inDraw (x : Raise) : (raiseError x s).inDraw = s.inDraw := rfl
@[simp] theorem raiseError_outDraw (x : Raise) : (raiseError x s).outDraw = s.draws := rfl
@[simp] theorem raiseError_engineWait (x : Raise) : (raiseError x s).engineWait = 0 := rfl
@[simp] theorem raiseError_pending (x : Raise) : (raiseError x s).pending = s.pending := rfl
@[simp] theorem raiseError_replies (x : Raise) : (raiseError x s).replies = s.replies := rfl

/-! ### `rejectIllegal` -/

@[simp] theorem rejectIllegal_params : (rejectIllegal s).params = s.params := rfl
@[simp] theorem rejectIllegal_status : (rejectIllegal s).status = statusIllegal s.status := rfl
@[simp] theorem rejectIllegal_errCode : (rejectIllegal s).errCode = errCodeWord .illegalCommand .command := rfl
@[simp] theorem rejectIllegal_errIndex : (rejectIllegal s).errIndex = 0 := rfl
@[simp] theorem rejectIllegal_inLen : (rejectIllegal s).inLen = s.inLen := rfl
@[simp] theorem rejectIllegal_outLen : (rejectIllegal s).outLen = 0 := rfl
@[simp] theorem rejectIllegal_resPad : (rejectIllegal s).resPad = 0 := rfl
@[simp] theorem rejectIllegal_resCount : (rejectIllegal s).resCount = 0 := rfl
@[simp] theorem rejectIllegal_resDepth : (rejectIllegal s).resDepth = 0 := rfl
@[simp] theorem rejectIllegal_resHdrBits : (rejectIllegal s).resHdrBits = 0 := rfl
@[simp] theorem rejectIllegal_resPayloadBits : (rejectIllegal s).resPayloadBits = 0 := rfl
@[simp] theorem rejectIllegal_inMem : (rejectIllegal s).inMem = s.inMem := rfl
@[simp] theorem rejectIllegal_outMem : (rejectIllegal s).outMem = s.outMem := rfl
@[simp] theorem rejectIllegal_engine : (rejectIllegal s).engine = s.engine := rfl
@[simp] theorem rejectIllegal_draws : (rejectIllegal s).draws = s.draws := rfl
@[simp] theorem rejectIllegal_inDraw : (rejectIllegal s).inDraw = s.inDraw := rfl
@[simp] theorem rejectIllegal_outDraw : (rejectIllegal s).outDraw = s.outDraw := rfl
@[simp] theorem rejectIllegal_engineWait : (rejectIllegal s).engineWait = s.engineWait := rfl
@[simp] theorem rejectIllegal_pending : (rejectIllegal s).pending = s.pending := rfl
@[simp] theorem rejectIllegal_replies : (rejectIllegal s).replies = s.replies := rfl

/-! ### `clearAll` -/

@[simp] theorem clearAll_params : (clearAll s).params = s.params := rfl
@[simp] theorem clearAll_status : (clearAll s).status = 0 := rfl
@[simp] theorem clearAll_errCode : (clearAll s).errCode = 0 := rfl
@[simp] theorem clearAll_errIndex : (clearAll s).errIndex = 0 := rfl
@[simp] theorem clearAll_inLen : (clearAll s).inLen = s.inLen := rfl
@[simp] theorem clearAll_outLen : (clearAll s).outLen = 0 := rfl
@[simp] theorem clearAll_resPad : (clearAll s).resPad = 0 := rfl
@[simp] theorem clearAll_resCount : (clearAll s).resCount = 0 := rfl
@[simp] theorem clearAll_resDepth : (clearAll s).resDepth = 0 := rfl
@[simp] theorem clearAll_resHdrBits : (clearAll s).resHdrBits = 0 := rfl
@[simp] theorem clearAll_resPayloadBits : (clearAll s).resPayloadBits = 0 := rfl
@[simp] theorem clearAll_inMem : (clearAll s).inMem = s.inMem := rfl
@[simp] theorem clearAll_outMem : (clearAll s).outMem = s.outMem := rfl
@[simp] theorem clearAll_engine : (clearAll s).engine = s.engine := rfl
@[simp] theorem clearAll_draws : (clearAll s).draws = s.draws := rfl
@[simp] theorem clearAll_inDraw : (clearAll s).inDraw = s.inDraw := rfl
@[simp] theorem clearAll_outDraw : (clearAll s).outDraw = s.outDraw := rfl
@[simp] theorem clearAll_engineWait : (clearAll s).engineWait = s.engineWait := rfl
@[simp] theorem clearAll_pending : (clearAll s).pending = s.pending := rfl
@[simp] theorem clearAll_replies : (clearAll s).replies = s.replies := rfl

/-! ### `dropWrite` -/

@[simp] theorem dropWrite_params : (dropWrite s).params = s.params := rfl
@[simp] theorem dropWrite_status : (dropWrite s).status = statusDropped s.status := rfl
@[simp] theorem dropWrite_errCode : (dropWrite s).errCode = s.errCode := rfl
@[simp] theorem dropWrite_errIndex : (dropWrite s).errIndex = s.errIndex := rfl
@[simp] theorem dropWrite_inLen : (dropWrite s).inLen = s.inLen := rfl
@[simp] theorem dropWrite_outLen : (dropWrite s).outLen = s.outLen := rfl
@[simp] theorem dropWrite_resPad : (dropWrite s).resPad = s.resPad := rfl
@[simp] theorem dropWrite_resCount : (dropWrite s).resCount = s.resCount := rfl
@[simp] theorem dropWrite_resDepth : (dropWrite s).resDepth = s.resDepth := rfl
@[simp] theorem dropWrite_resHdrBits : (dropWrite s).resHdrBits = s.resHdrBits := rfl
@[simp] theorem dropWrite_resPayloadBits : (dropWrite s).resPayloadBits = s.resPayloadBits := rfl
@[simp] theorem dropWrite_inMem : (dropWrite s).inMem = s.inMem := rfl
@[simp] theorem dropWrite_outMem : (dropWrite s).outMem = s.outMem := rfl
@[simp] theorem dropWrite_engine : (dropWrite s).engine = s.engine := rfl
@[simp] theorem dropWrite_draws : (dropWrite s).draws = s.draws := rfl
@[simp] theorem dropWrite_inDraw : (dropWrite s).inDraw = s.inDraw := rfl
@[simp] theorem dropWrite_outDraw : (dropWrite s).outDraw = s.outDraw := rfl
@[simp] theorem dropWrite_engineWait : (dropWrite s).engineWait = s.engineWait := rfl
@[simp] theorem dropWrite_pending : (dropWrite s).pending = s.pending := rfl
@[simp] theorem dropWrite_replies : (dropWrite s).replies = s.replies := rfl

/-! ### `resetMachine` -/

@[simp] theorem resetMachine_params : (resetMachine s).params = s.params := rfl
@[simp] theorem resetMachine_status : (resetMachine s).status = 0 := rfl
@[simp] theorem resetMachine_errCode : (resetMachine s).errCode = 0 := rfl
@[simp] theorem resetMachine_errIndex : (resetMachine s).errIndex = 0 := rfl
@[simp] theorem resetMachine_inLen : (resetMachine s).inLen = 0 := rfl
@[simp] theorem resetMachine_outLen : (resetMachine s).outLen = 0 := rfl
@[simp] theorem resetMachine_resPad : (resetMachine s).resPad = 0 := rfl
@[simp] theorem resetMachine_resCount : (resetMachine s).resCount = 0 := rfl
@[simp] theorem resetMachine_resDepth : (resetMachine s).resDepth = 0 := rfl
@[simp] theorem resetMachine_resHdrBits : (resetMachine s).resHdrBits = 0 := rfl
@[simp] theorem resetMachine_resPayloadBits : (resetMachine s).resPayloadBits = 0 := rfl
@[simp] theorem resetMachine_inMem : (resetMachine s).inMem = [] := rfl
@[simp] theorem resetMachine_outMem : (resetMachine s).outMem = [] := rfl
@[simp] theorem resetMachine_engine : (resetMachine s).engine = .idle := rfl
@[simp] theorem resetMachine_draws : (resetMachine s).draws = s.draws + 1 := rfl
@[simp] theorem resetMachine_inDraw : (resetMachine s).inDraw = s.draws := rfl
@[simp] theorem resetMachine_outDraw : (resetMachine s).outDraw = s.draws := rfl
@[simp] theorem resetMachine_engineWait : (resetMachine s).engineWait = 0 := rfl
@[simp] theorem resetMachine_pending : (resetMachine s).pending = s.pending := rfl
@[simp] theorem resetMachine_replies : (resetMachine s).replies = s.replies := rfl

/-! ### `answer` -/

@[simp] theorem answer_params (v : Word) : (answer v s).params = s.params := rfl
@[simp] theorem answer_status (v : Word) : (answer v s).status = s.status := rfl
@[simp] theorem answer_errCode (v : Word) : (answer v s).errCode = s.errCode := rfl
@[simp] theorem answer_errIndex (v : Word) : (answer v s).errIndex = s.errIndex := rfl
@[simp] theorem answer_inLen (v : Word) : (answer v s).inLen = s.inLen := rfl
@[simp] theorem answer_outLen (v : Word) : (answer v s).outLen = s.outLen := rfl
@[simp] theorem answer_resPad (v : Word) : (answer v s).resPad = s.resPad := rfl
@[simp] theorem answer_resCount (v : Word) : (answer v s).resCount = s.resCount := rfl
@[simp] theorem answer_resDepth (v : Word) : (answer v s).resDepth = s.resDepth := rfl
@[simp] theorem answer_resHdrBits (v : Word) : (answer v s).resHdrBits = s.resHdrBits := rfl
@[simp] theorem answer_resPayloadBits (v : Word) : (answer v s).resPayloadBits = s.resPayloadBits := rfl
@[simp] theorem answer_inMem (v : Word) : (answer v s).inMem = s.inMem := rfl
@[simp] theorem answer_outMem (v : Word) : (answer v s).outMem = s.outMem := rfl
@[simp] theorem answer_engine (v : Word) : (answer v s).engine = s.engine := rfl
@[simp] theorem answer_draws (v : Word) : (answer v s).draws = s.draws := rfl
@[simp] theorem answer_inDraw (v : Word) : (answer v s).inDraw = s.inDraw := rfl
@[simp] theorem answer_outDraw (v : Word) : (answer v s).outDraw = s.outDraw := rfl
@[simp] theorem answer_engineWait (v : Word) : (answer v s).engineWait = s.engineWait := rfl
@[simp] theorem answer_pending (v : Word) : (answer v s).pending = s.pending := rfl
@[simp] theorem answer_replies (v : Word) : (answer v s).replies = v :: s.replies := rfl

end Sys2Proof.Machine
end

