-- ==== Sys2Proof/Laws/Flags.lean ====
section
/-! SUPPORT. What each update of STATUS does to each of its bits (10_state.md R35 to R39). -/

namespace Sys2Proof.Machine

/-- A bit write sets that bit and keeps the others. -/
theorem withBit_getLsbD (v : Word) (i j : Nat) (b : Bool) (hi : i < 32) :
    (withBit v i b).getLsbD j = if j = i then b else v.getLsbD j := by
  by_cases hj : j < 32
  · rcases Nat.lt_trichotomy j i with h | h | h
    · have hne : j ≠ i := by omega
      cases b <;> simp [withBit, hj, h, hne]
    · subst h
      cases b <;> simp [withBit, hj]
    · have hne : j ≠ i := by omega
      have h0 : j - i ≠ 0 := by omega
      cases b <;> simp [withBit, hj, hne, h0]
  · have h32 : ∀ x : Word, x.getLsbD j = false := fun x => BitVec.getLsbD_of_ge x j (by omega)
    simp [h32]
    omega

@[simp] theorem statusAccepted_getLsbD (v : Word) (j : Nat) :
    (statusAccepted v).getLsbD j =
      if j = 0 then true else if j = 1 then false else if j = 2 then false else v.getLsbD j := by
  simp only [statusAccepted, withBit_getLsbD _ _ _ _ (show 0 < 32 by decide),
    withBit_getLsbD _ _ _ _ (show 1 < 32 by decide), withBit_getLsbD _ _ _ _ (show 2 < 32 by decide)]
  split_ifs <;> simp_all

@[simp] theorem statusSucceeded_getLsbD (v : Word) (j : Nat) :
    (statusSucceeded v).getLsbD j =
      if j = 0 then false else if j = 1 then true else if j = 2 then false else v.getLsbD j := by
  simp only [statusSucceeded, withBit_getLsbD _ _ _ _ (show 0 < 32 by decide),
    withBit_getLsbD _ _ _ _ (show 1 < 32 by decide), withBit_getLsbD _ _ _ _ (show 2 < 32 by decide)]
  split_ifs <;> simp_all

@[simp] theorem statusFailed_getLsbD (v : Word) (j : Nat) :
    (statusFailed v).getLsbD j =
      if j = 0 then false else if j = 1 then true else if j = 2 then true else v.getLsbD j := by
  simp only [statusFailed, withBit_getLsbD _ _ _ _ (show 0 < 32 by decide),
    withBit_getLsbD _ _ _ _ (show 1 < 32 by decide), withBit_getLsbD _ _ _ _ (show 2 < 32 by decide)]
  split_ifs <;> simp_all

@[simp] theorem statusIllegal_getLsbD (v : Word) (j : Nat) :
    (statusIllegal v).getLsbD j = if j = 1 then true else if j = 2 then true else v.getLsbD j := by
  simp only [statusIllegal, withBit_getLsbD _ _ _ _ (show 1 < 32 by decide),
    withBit_getLsbD _ _ _ _ (show 2 < 32 by decide)]
  split_ifs <;> simp_all

@[simp] theorem statusDropped_getLsbD (v : Word) (j : Nat) :
    (statusDropped v).getLsbD j = if j = 3 then true else v.getLsbD j :=
  withBit_getLsbD v 3 j true (by decide)

/-- A word is below 16 exactly when its bits 31:4 are zero (10_state.md R35). -/
theorem toNat_lt_16_iff (v : Word) : v.toNat < 16 ↔ ∀ j, 4 ≤ j → v.getLsbD j = false := by
  constructor
  · intro h j hj
    rw [BitVec.getLsbD]
    exact Nat.testBit_lt_two_pow (lt_of_lt_of_le h (by simpa using Nat.pow_le_pow_right (n := 2) (by decide) hj))
  · intro h
    exact Nat.lt_pow_two_of_testBit (n := 4) v.toNat fun j hj => by simpa [BitVec.getLsbD] using h j hj

section
variable (s : State) (op : Op) (r : Success) (x : Raise) (v : Word)

@[simp] theorem accept_busy : (accept op s).busy = true := by simp [State.busy, -BitVec.getLsbD_eq_getElem]
@[simp] theorem accept_done : (accept op s).done = false := by simp [State.done, -BitVec.getLsbD_eq_getElem]
@[simp] theorem accept_err : (accept op s).err = false := by simp [State.err, -BitVec.getLsbD_eq_getElem]
@[simp] theorem accept_drop : (accept op s).drop = s.drop := by simp [State.drop, -BitVec.getLsbD_eq_getElem]
@[simp] theorem finish_busy : (finish r s).busy = false := by simp [State.busy, -BitVec.getLsbD_eq_getElem]
@[simp] theorem finish_done : (finish r s).done = true := by simp [State.done, -BitVec.getLsbD_eq_getElem]
@[simp] theorem finish_err : (finish r s).err = false := by simp [State.err, -BitVec.getLsbD_eq_getElem]
@[simp] theorem finish_drop : (finish r s).drop = s.drop := by simp [State.drop, -BitVec.getLsbD_eq_getElem]
@[simp] theorem raiseError_busy : (raiseError x s).busy = false := by simp [State.busy, -BitVec.getLsbD_eq_getElem]
@[simp] theorem raiseError_done : (raiseError x s).done = true := by simp [State.done, -BitVec.getLsbD_eq_getElem]
@[simp] theorem raiseError_err : (raiseError x s).err = true := by simp [State.err, -BitVec.getLsbD_eq_getElem]
@[simp] theorem raiseError_drop : (raiseError x s).drop = s.drop := by simp [State.drop, -BitVec.getLsbD_eq_getElem]
@[simp] theorem rejectIllegal_busy : (rejectIllegal s).busy = s.busy := by simp [State.busy, -BitVec.getLsbD_eq_getElem]
@[simp] theorem rejectIllegal_done : (rejectIllegal s).done = true := by simp [State.done, -BitVec.getLsbD_eq_getElem]
@[simp] theorem rejectIllegal_err : (rejectIllegal s).err = true := by simp [State.err, -BitVec.getLsbD_eq_getElem]
@[simp] theorem rejectIllegal_drop : (rejectIllegal s).drop = s.drop := by simp [State.drop, -BitVec.getLsbD_eq_getElem]
@[simp] theorem clearAll_busy : (clearAll s).busy = false := by simp [State.busy, -BitVec.getLsbD_eq_getElem]
@[simp] theorem clearAll_done : (clearAll s).done = false := by simp [State.done, -BitVec.getLsbD_eq_getElem]
@[simp] theorem clearAll_err : (clearAll s).err = false := by simp [State.err, -BitVec.getLsbD_eq_getElem]
@[simp] theorem clearAll_drop : (clearAll s).drop = false := by simp [State.drop, -BitVec.getLsbD_eq_getElem]
@[simp] theorem dropWrite_busy : (dropWrite s).busy = s.busy := by simp [State.busy, -BitVec.getLsbD_eq_getElem]
@[simp] theorem dropWrite_done : (dropWrite s).done = s.done := by simp [State.done, -BitVec.getLsbD_eq_getElem]
@[simp] theorem dropWrite_err : (dropWrite s).err = s.err := by simp [State.err, -BitVec.getLsbD_eq_getElem]
@[simp] theorem dropWrite_drop : (dropWrite s).drop = true := by simp [State.drop, -BitVec.getLsbD_eq_getElem]
@[simp] theorem resetMachine_busy : (resetMachine s).busy = false := by simp [State.busy, -BitVec.getLsbD_eq_getElem]
@[simp] theorem resetMachine_done : (resetMachine s).done = false := by simp [State.done, -BitVec.getLsbD_eq_getElem]
@[simp] theorem resetMachine_err : (resetMachine s).err = false := by simp [State.err, -BitVec.getLsbD_eq_getElem]
@[simp] theorem resetMachine_drop : (resetMachine s).drop = false := by simp [State.drop, -BitVec.getLsbD_eq_getElem]
@[simp] theorem answer_busy : (answer v s).busy = s.busy := rfl
@[simp] theorem answer_done : (answer v s).done = s.done := rfl
@[simp] theorem answer_err : (answer v s).err = s.err := rfl
@[simp] theorem answer_drop : (answer v s).drop = s.drop := rfl

/-! What the step sets before a host action keeps STATUS. -/

@[simp] theorem host_busy (p : List HostAction) (w : Nat) :
    State.busy { s with pending := p, engineWait := w } = s.busy := rfl
@[simp] theorem host_done (p : List HostAction) (w : Nat) :
    State.done { s with pending := p, engineWait := w } = s.done := rfl
@[simp] theorem host_err (p : List HostAction) (w : Nat) :
    State.err { s with pending := p, engineWait := w } = s.err := rfl
@[simp] theorem host_drop (p : List HostAction) (w : Nat) :
    State.drop { s with pending := p, engineWait := w } = s.drop := rfl

end

end Sys2Proof.Machine
end

