-- ==== Sys2Proof/Laws/Memory.lean ====
section
/-! SUPPORT. The laws of a memory: read after write, the canonical form, and that canonical memories with the same
entries are the same data. -/

namespace Sys2Proof.Machine

variable {w : Nat}

/-- One write: the entry written reads as the value, every other entry as before. -/
theorem Memory.cell?_write (m : Memory w) (i j : Nat) (v : BitVec w) :
    Memory.cell? (Memory.write m i v) j = if i = j then some v else Memory.cell? m j := by
  induction m with
  | nil => simp [Memory.write, Memory.cell?]
  | cons p m ih =>
    obtain ⟨a, x⟩ := p
    by_cases h1 : i < a
    · simp [Memory.write, Memory.cell?, h1]
    · by_cases h2 : i = a
      · subst h2
        by_cases h3 : i = j <;> simp [Memory.write, Memory.cell?, h3]
      · by_cases h3 : a = j
        · have h4 : i ≠ j := by omega
          subst h3
          simp [Memory.write, Memory.cell?, h1, h2]
        · simp [Memory.write, Memory.cell?, h1, h2, h3, ih]

/-- A run of writes: the entries written read as the values, every other entry as before. -/
theorem Memory.cell?_writeFrom (vs : List (BitVec w)) (m : Memory w) (i j : Nat) :
    Memory.cell? (Memory.writeFrom m i vs) j =
      if h : i ≤ j ∧ j < i + vs.length then some (vs[j - i]'(by omega)) else Memory.cell? m j := by
  induction vs generalizing m i with
  | nil =>
    simp [Memory.writeFrom]
  | cons v vs ih =>
    rw [Memory.writeFrom, ih, Memory.cell?_write]
    by_cases hij : i = j
    · subst hij; simp
    · by_cases h : i + 1 ≤ j ∧ j < i + 1 + vs.length
      · have h' : i ≤ j ∧ j < i + (vs.length + 1) := by omega
        simp only [h, and_self, dite_true, List.length_cons, h']
        congr 1
        rw [List.getElem_cons, dif_neg (by omega)]
        congr 1
      · have h' : ¬(i ≤ j ∧ j < i + (vs.length + 1)) := by omega
        rw [dif_neg h, if_neg hij]
        simp [h']

theorem Memory.wfFrom_mono {bound lo lo' : Nat} (m : Memory w) (h : lo' ≤ lo)
    (hm : Memory.wfFrom bound lo m = true) : Memory.wfFrom bound lo' m = true := by
  cases m with
  | nil => rfl
  | cons p m =>
    simp [Memory.wfFrom] at hm ⊢
    exact ⟨⟨h.trans hm.1.1, hm.1.2⟩, hm.2⟩

theorem Memory.wfFrom_write {bound : Nat} (m : Memory w) (lo i : Nat) (v : BitVec w) (hlo : lo ≤ i)
    (hi : i < bound) (hm : Memory.wfFrom bound lo m = true) :
    Memory.wfFrom bound lo (Memory.write m i v) = true := by
  induction m generalizing lo with
  | nil => simp [Memory.write, Memory.wfFrom, hlo, hi]
  | cons p m ih =>
    obtain ⟨a, x⟩ := p
    simp [Memory.wfFrom] at hm
    by_cases h1 : i < a
    · simp [Memory.write, Memory.wfFrom, h1, hlo, hi, hm]
    · by_cases h2 : i = a
      · subst h2; simp [Memory.write, Memory.wfFrom, hm]
      · simp [Memory.write, Memory.wfFrom, h1, h2, hm]
        exact ih _ (by omega) hm.2

/-- A write in range keeps the canonical form. -/
theorem Memory.wf_write {bound : Nat} (m : Memory w) (i : Nat) (v : BitVec w) (hi : i < bound)
    (hm : Memory.wf bound m = true) : Memory.wf bound (Memory.write m i v) = true :=
  Memory.wfFrom_write m 0 i v (Nat.zero_le i) hi hm

/-- A run of writes in range keeps the canonical form. -/
theorem Memory.wf_writeFrom {bound : Nat} (vs : List (BitVec w)) (m : Memory w) (i : Nat)
    (hi : i + vs.length ≤ bound) (hm : Memory.wf bound m = true) :
    Memory.wf bound (Memory.writeFrom m i vs) = true := by
  induction vs generalizing m i with
  | nil => exact hm
  | cons v vs ih =>
    simp at hi
    exact ih _ _ (by omega) (Memory.wf_write m i v (by omega) hm)

@[simp] theorem Memory.wf_nil (bound : Nat) : Memory.wf bound ([] : Memory w) = true := rfl

/-- A canonical memory lists nothing below its lower bound. -/
theorem Memory.cell?_eq_none_of_lt {bound lo : Nat} (m : Memory w) (i : Nat) (hi : i < lo)
    (hm : Memory.wfFrom bound lo m = true) : Memory.cell? m i = none := by
  induction m generalizing lo with
  | nil => rfl
  | cons p m ih =>
    simp [Memory.wfFrom] at hm
    have ha : p.1 ≠ i := by omega
    simpa [Memory.cell?, ha] using ih (lo := p.1 + 1) (by omega) hm.2

/-- Canonical memories that hold the same entries are the same data. -/
theorem Memory.ext_of_wfFrom {bound lo : Nat} (m m' : Memory w) (hm : Memory.wfFrom bound lo m = true)
    (hm' : Memory.wfFrom bound lo m' = true) (h : ∀ i, Memory.cell? m i = Memory.cell? m' i) : m = m' := by
  induction m generalizing lo m' with
  | nil =>
    cases m' with
    | nil => rfl
    | cons q m' => simpa [Memory.cell?] using h q.1
  | cons p m ih =>
    cases m' with
    | nil => simpa [Memory.cell?] using h p.1
    | cons q m' =>
      obtain ⟨a, x⟩ := p
      obtain ⟨b, y⟩ := q
      simp [Memory.wfFrom] at hm hm'
      have hab : a = b := by
        rcases Nat.lt_trichotomy a b with hlt | heq | hgt
        · have := h a
          have hb : b ≠ a := by omega
          simp [Memory.cell?, hb, Memory.cell?_eq_none_of_lt m' a (show a < b + 1 by omega) hm'.2] at this
        · exact heq
        · have := h b
          have ha : a ≠ b := by omega
          simp [Memory.cell?, ha, Memory.cell?_eq_none_of_lt m b (show b < a + 1 by omega) hm.2] at this
      subst hab
      have hxy : x = y := by simpa [Memory.cell?] using h a
      subst hxy
      congr 1
      refine ih m' hm.2 hm'.2 fun i => ?_
      by_cases hi : a = i
      · subst hi
        rw [Memory.cell?_eq_none_of_lt m a (Nat.lt_succ_self a) hm.2,
          Memory.cell?_eq_none_of_lt m' a (Nat.lt_succ_self a) hm'.2]
      · simpa [Memory.cell?, hi] using h i

/-- Canonical memories with the same entries are equal data. -/
theorem Memory.ext_of_wf {bound : Nat} (m m' : Memory w) (hm : Memory.wf bound m = true)
    (hm' : Memory.wf bound m' = true) (h : ∀ i, Memory.cell? m i = Memory.cell? m' i) : m = m' :=
  Memory.ext_of_wfFrom m m' hm hm' h

end Sys2Proof.Machine
end

