-- ==== Sys2Proof/Laws/Ops.lean ====
section
/-! SUPPORT. One lemma for each shared operation on State: everything it leaves, in the terms of Safety.lean. -/

namespace Sys2Proof.Machine

/-- An IN_MEM entry keeps the low CHAR_WIDTH bits (20_memory.md R85). -/
theorem charBits_toNat (p : Config.Params) (hp : p.charWidth ≤ 32) (v : Word) :
    (charBits p v).toNat = v.toNat % 2 ^ p.charWidth := by
  have hle : 2 ^ p.charWidth ≤ 2 ^ 32 := Nat.pow_le_pow_right (by omega) hp
  have hpos : 0 < 2 ^ p.charWidth := Nat.two_pow_pos _
  rw [charBits, BitVec.toNat_and, BitVec.toNat_ofNat, Nat.mod_eq_of_lt (by omega : 2 ^ p.charWidth - 1 < 2 ^ 32),
    Nat.and_two_pow_sub_one_eq_mod]

/-- Everything a dropped write leaves (10_state.md R39). -/
theorem dropWrite_dropped (s : State) : Dropped s (dropWrite s) := by
  refine ⟨rfl, by simp, fun j hj => ?_, fun _ => rfl, fun _ => rfl⟩
  simp [hj, -BitVec.getLsbD_eq_getElem]

/-- Everything acceptance leaves (48_commands.md R351). -/
theorem accept_accepted (op : Op) (s : State) : Accepted op s (accept op s) := by
  refine ⟨by simp, by simp, by simp, fun j hj => ?_, rfl, fun _ => rfl, fun _ => rfl⟩
  have : j ≠ 0 ∧ j ≠ 1 ∧ j ≠ 2 := by omega
  simp [this, -BitVec.getLsbD_eq_getElem]

/-- Everything a successful end leaves (48_commands.md R360). -/
theorem finish_succeeded (r : Success) (s : State) : Succeeded r s (finish r s) := by
  refine ⟨by simp, by simp, by simp, fun j hj => ?_, rfl, fun _ => rfl, fun i => ?_⟩
  · have : j ≠ 0 ∧ j ≠ 1 ∧ j ≠ 2 := by omega
    simp [this, -BitVec.getLsbD_eq_getElem]
  · simp only [State.outByte, finish_outMem, finish_outDraw, Memory.cell?_writeFrom]
    by_cases hi : i < r.out.length <;> simp [hi]

/-- ERR_CODE is STAGE times 256 plus CODE (10_state.md R40). -/
theorem errCodeWord_eq (e : ErrorName) (st : Stage) :
    errCodeWord e st = BitVec.ofNat 32 (stageNumber st * 256 + errorNumber e) := by
  cases e <;> cases st <;> rfl

/-- Everything an end by an error leaves (60_exceptions.md R420). -/
theorem raiseError_failed (x : Raise) (s : State) :
    Failed (errCodeWord x.error x.stage) (errIndexWord x) s (raiseError x s) := by
  refine ⟨by simp, by simp, by simp, fun j hj => ?_, rfl, fun _ => rfl, fun _ => rfl⟩
  have : j ≠ 0 ∧ j ≠ 1 ∧ j ≠ 2 := by omega
  simp [this, -BitVec.getLsbD_eq_getElem]

/-! ### Either end of an operation -/

theorem engineStep_cases (op : Op) (s : State) :
    (∃ r, engineResult op s = .ok r ∧ engineStep op s = finish r s) ∨
      ∃ x, engineResult op s = .error x ∧ engineStep op s = raiseError x s := by
  unfold engineStep
  cases engineResult op s with
  | ok r => exact .inl ⟨r, rfl, rfl⟩
  | error x => exact .inr ⟨x, rfl, rfl⟩

/-- An operation whose result is an error ends by it (60_exceptions.md R420). -/
theorem engineStep_failed {op : Op} {s : State} {x : Raise} (h : engineResult op s = .error x) :
    Failed (errCodeWord x.error x.stage) (errIndexWord x) s (engineStep op s) := by
  rw [show engineStep op s = raiseError x s by simp [engineStep, h]]
  exact raiseError_failed x s

/-- A DECODE whose stages fail ends by their error (60_exceptions.md R405, R420). -/
theorem engineStep_decode_failed {s : State} {x : Raise} (hin : s.inLen.toNat ≤ s.params.maxIn)
    (h : decodeBytes s.params.maxOut (inputBytes s) = .error x) :
    Failed (errCodeWord x.error x.stage) (errIndexWord x) s (engineStep .decode s) :=
  engineStep_failed ((engineResult_decode hin).trans h)

/-- What both ends leave (48_commands.md R360, 60_exceptions.md R420). -/
theorem engineStep_spec (op : Op) (s : State) :
    (engineStep op s).busy = false ∧ (engineStep op s).done = true ∧ (engineStep op s).drop = s.drop ∧
      (engineStep op s).engine = .idle ∧ (engineStep op s).engineWait = 0 ∧
      (engineStep op s).pending = s.pending ∧ (engineStep op s).replies = s.replies ∧
      (engineStep op s).params = s.params ∧ (engineStep op s).inLen = s.inLen ∧
      (engineStep op s).inMem = s.inMem ∧ (engineStep op s).inDraw = s.inDraw := by
  rcases engineStep_cases op s with ⟨r, -, h⟩ | ⟨x, -, h⟩ <;> rw [h] <;> simp

end Sys2Proof.Machine
end

