-- ==== Sys2Proof/Laws/PerInstr.lean ====
section
/-! SUPPORT. Per instruction: the first row of opcode_table.json that matches an instruction's word is its own
(30_encoding.md R112). -/

namespace Sys2Proof.Laws.TableRow

/-- The place of an instruction's row in opcode_table.json; ILLEGAL is the default row after the four others. -/
def rowIndex : Instr → Nat
  | .nop => 0
  | .encode => 1
  | .decode => 2
  | .clear => 3
  | .illegal _ _ => 4

/-- The rows tried in order find the instruction's own row first. -/
def Statement (i : Instr) : Prop :=
  i.wellFormed = true → opcodeRows.findIdx (fun r => rowMatches r (encode i)) = rowIndex i

end Sys2Proof.Laws.TableRow

theorem Sys2Proof.Laws.TableRow.nop : Sys2Proof.Laws.TableRow.Statement .nop := fun _ => by decide
theorem Sys2Proof.Laws.TableRow.encode : Sys2Proof.Laws.TableRow.Statement .encode := fun _ => by decide
theorem Sys2Proof.Laws.TableRow.decode : Sys2Proof.Laws.TableRow.Statement .decode := fun _ => by decide
theorem Sys2Proof.Laws.TableRow.clear : Sys2Proof.Laws.TableRow.Statement .clear := fun _ => by decide

/-- An illegal word is none of the words 0 to 3. -/
theorem Sys2Proof.Laws.TableRow.illegal_word_ge_four (opc : BitVec 8) (rsvd : BitVec 24)
    (h : Sys2Proof.illegalFields opc rsvd = true) : 4 ≤ (Sys2Proof.wordOfFields opc rsvd).toNat := by
  have hw := Sys2Proof.wordOfFields_toNat opc rsvd
  simp only [Sys2Proof.illegalFields, Bool.or_eq_true, bne_iff_ne, decide_eq_true_eq] at h
  rcases h with h | h
  · have : rsvd.toNat ≠ 0 := fun h0 => h (BitVec.eq_of_toNat_eq (by simpa using h0))
    omega
  · omega

theorem Sys2Proof.Laws.TableRow.illegal (opc : BitVec 8) (rsvd : BitVec 24) :
    Sys2Proof.Laws.TableRow.Statement (.illegal opc rsvd) := by
  intro h
  have hge := Sys2Proof.Laws.TableRow.illegal_word_ge_four opc rsvd h
  refine List.findIdx_eq_length_of_false fun r hr => ?_
  have hmask : ∀ v : Sys2Proof.Word, v &&& 0xFFFFFFFF#32 = v := fun v => BitVec.and_allOnes
  have hsmall : ∀ q ∈ Sys2Proof.opcodeRows, q.mask = 0xFFFFFFFF#32 ∧ q.matchWord.toNat < 4 := by decide
  obtain ⟨hm, hlt⟩ := hsmall r hr
  rw [Sys2Proof.rowMatches, hm, hmask, beq_eq_false_iff_ne]
  intro heq
  rw [← heq] at hlt
  exact absurd hge (Nat.not_le.mpr hlt)
end

