-- ==== Sys2Proof/Laws/Step.lean ====
section
/-! SUPPORT. Said once: what a command word, a host action and a step can do. -/

namespace Sys2Proof.Machine

/-- Everything a host action can do to a state (20_memory.md R82 to R88; 48_commands.md R350 to R359;
70_reset_and_hazards.md R450). -/
inductive HostEffect (s : State) : HostAction → State → Prop
  | unchanged (a : HostAction) (ha : a ≠ .reset) : HostEffect s a s
  | dropped (a : HostAction) (hb : s.busy = true) (ha : a ≠ .reset) : HostEffect s a (dropWrite s)
  | accepted (op : Op) (n : BitVec 8) (v : Word) (hb : s.busy = false) (hn : regName n = .cmd)
      (hv : decode v = match op with | .encode => .encode | .decode => .decode) :
      HostEffect s (.tx (.regWrite n v)) (accept op s)
  | cleared (n : BitVec 8) (v : Word) (hb : s.busy = false) (hn : regName n = .cmd) (hv : decode v = .clear) :
      HostEffect s (.tx (.regWrite n v)) (clearAll s)
  | illegal (n : BitVec 8) (v : Word) (hb : s.busy = false) (hn : regName n = .cmd) (opc : BitVec 8)
      (rsvd : BitVec 24) (hv : decode v = .illegal opc rsvd) :
      HostEffect s (.tx (.regWrite n v)) (rejectIllegal s)
  | inLen (n : BitVec 8) (v : Word) (hb : s.busy = false) (hn : regName n = .inLen) :
      HostEffect s (.tx (.regWrite n v)) { s with inLen := v }
  | inMem (a : HostAction) (i v : Word) (hb : s.busy = false) (hi : i.toNat < s.params.maxIn)
      (ha : a = .tx (.inWrite i v) ∨ a = .inWriteReply i ∧ v = lastReply s) :
      HostEffect s a { s with inMem := Memory.write s.inMem i.toNat (charBits s.params v) }
  | answered (a : HostAction) (v : Word) (ha : a ≠ .reset) : HostEffect s a (answer v s)
  | drawn (i v : Word) (hb : s.busy = true) :
      HostEffect s (.tx (.outRead i)) (answer v { s with draws := s.draws + 1 })
  | polled (n : BitVec 8) (mask value v : Word) :
      HostEffect s (.poll n mask value) { answer v s with pending := .poll n mask value :: s.pending }
  | reset : HostEffect s .reset (resetMachine s)

/-- A command word always answers a next state: the dropped write while BUSY, else the word's own effect. -/
theorem exec_eq (i : Instr) (s : State) :
    exec i s = .next (if s.busy then dropWrite s else
      match i with
      | .nop => s
      | .encode => accept .encode s
      | .decode => accept .decode s
      | .clear => clearAll s
      | .illegal _ _ => rejectIllegal s) := by
  cases i <;> rfl

theorem exec_effect (n : BitVec 8) (v : Word) (s : State) (hn : regName n = .cmd) :
    ∃ t, exec (decode v) s = .next t ∧ HostEffect s (.tx (.regWrite n v)) t := by
  rw [exec_eq]
  refine ⟨_, rfl, ?_⟩
  cases hb : s.busy with
  | true => simpa [hb] using HostEffect.dropped _ hb (by simp)
  | false =>
    cases hv : decode v with
    | nop => simpa [hb, hv] using HostEffect.unchanged _ (by simp)
    | encode => simpa [hb, hv] using HostEffect.accepted .encode n v hb hn hv
    | decode => simpa [hb, hv] using HostEffect.accepted .decode n v hb hn hv
    | clear => simpa [hb, hv] using HostEffect.cleared n v hb hn hv
    | illegal opc rsvd => simpa [hb, hv] using HostEffect.illegal n v hb hn opc rsvd hv

theorem inWrite_effect (a : HostAction) (i v : Word) (s : State)
    (ha : a = .tx (.inWrite i v) ∨ a = .inWriteReply i ∧ v = lastReply s) : HostEffect s a (inWrite i v s) := by
  have hr : a ≠ .reset := by rcases ha with h | ⟨h, -⟩ <;> simp [h]
  unfold inWrite
  cases hb : s.busy with
  | true => simpa [hb] using HostEffect.dropped _ hb hr
  | false =>
    by_cases hi : i.toNat < s.params.maxIn
    · simpa [hb, hi] using HostEffect.inMem a i v hb hi ha
    · simpa [hb, hi] using HostEffect.unchanged _ hr

theorem regWrite_effect (n : BitVec 8) (v : Word) (s : State) :
    ∃ t, regWrite n v s = .next t ∧ HostEffect s (.tx (.regWrite n v)) t := by
  unfold regWrite
  by_cases h1 : regName n = .cmd
  · simpa [h1] using exec_effect n v s h1
  · by_cases h5 : regName n = .inLen
    · cases hb : s.busy with
      | true => simpa [h5, hb] using HostEffect.dropped _ hb (by simp)
      | false => simpa [h5, hb] using HostEffect.inLen n v hb h5
    · simpa [h1, h5] using HostEffect.unchanged _ (by simp)

theorem outRead_effect (i : Word) (s : State) : HostEffect s (.tx (.outRead i)) (outRead i s) := by
  unfold outRead
  by_cases hi : s.params.maxOut ≤ i.toNat
  · simpa [hi] using HostEffect.answered _ _ (by simp)
  · cases hb : s.busy with
    | true => simpa [hi, hb] using HostEffect.drawn i _ hb
    | false => simpa [hi, hb] using HostEffect.answered _ _ (by simp)

/-- A host action always answers a next state, and what it does is one of the listed effects. -/
theorem perform_effect (a : HostAction) (s : State) : ∃ t, perform a s = .next t ∧ HostEffect s a t := by
  cases a with
  | reset => exact ⟨_, rfl, .reset⟩
  | inWriteReply i => exact ⟨_, rfl, inWrite_effect _ i _ s (.inr ⟨rfl, rfl⟩)⟩
  | poll n mask value =>
    refine ⟨_, rfl, ?_⟩
    by_cases h : lastReply (regRead n s) &&& mask = value
    · rw [pollOnce, if_pos h]
      exact .answered _ _ (by simp)
    · rw [pollOnce, if_neg h]
      exact .polled n mask value _
  | tx t =>
    cases t with
    | regRead n => exact ⟨_, rfl, .answered _ _ (by simp)⟩
    | regWrite n v => exact regWrite_effect n v s
    | inRead i => exact ⟨_, rfl, .answered _ _ (by simp)⟩
    | inWrite i v => exact ⟨_, rfl, inWrite_effect _ i v s (.inl rfl)⟩
    | outRead i => exact ⟨_, rfl, outRead_effect i s⟩
    | outWrite i v => exact ⟨_, rfl, .unchanged _ (by simp)⟩

/-- What a step can do: nothing (an idle machine with no host action), the engine step, or one host action. -/
inductive StepEffect (s : State) : State → Prop
  | rest (he : s.engine = .idle) (hp : s.pending = []) : StepEffect s s
  | engine (op : Op) (he : s.engine = .busy op) (hw : s.pending = [] ∨ s.engineWait = 0) :
      StepEffect s (engineStep op s)
  | host (a : HostAction) (more : List HostAction) (w : Nat) (t : State) (hp : s.pending = a :: more)
      (hw : s.engine = .idle ∧ w = s.engineWait ∨ s.engine ≠ .idle ∧ s.engineWait = w + 1)
      (h : HostEffect { s with pending := more, engineWait := w } a t) : StepEffect s t

theorem step_idle_nil {s : State} (he : s.engine = .idle) (hp : s.pending = []) : step s = .next s := by
  simp [step, advance, he, hp]

theorem step_idle_cons {s : State} {a : HostAction} {more : List HostAction} (he : s.engine = .idle)
    (hp : s.pending = a :: more) : step s = perform a { s with pending := more } := by
  simp [step, advance, he, hp]

theorem step_engine {s : State} {op : Op} (he : s.engine = .busy op) (h : s.pending = [] ∨ s.engineWait = 0) :
    step s = .next (engineStep op s) := by
  unfold step advance
  split <;> simp_all

theorem step_busy_cons {s : State} {op : Op} {a : HostAction} {more : List HostAction} {w : Nat}
    (he : s.engine = .busy op) (hp : s.pending = a :: more) (hw : s.engineWait = w + 1) :
    step s = perform a { s with pending := more, engineWait := w } := by
  simp [step, advance, he, hp, hw]

/-- A step always answers a next state, and it is one of the listed effects. -/
theorem step_effect (s : State) : ∃ t, step s = .next t ∧ StepEffect s t := by
  cases he : s.engine with
  | idle =>
    cases hp : s.pending with
    | nil => exact ⟨s, step_idle_nil he hp, .rest he hp⟩
    | cons a more =>
      obtain ⟨t, ht, hf⟩ := perform_effect a { s with pending := more }
      exact ⟨t, (step_idle_cons he hp).trans ht, .host a more s.engineWait t hp (.inl ⟨he, rfl⟩) hf⟩
  | busy op =>
    cases hp : s.pending with
    | nil => exact ⟨_, step_engine he (.inl hp), .engine op he (.inl hp)⟩
    | cons a more =>
      cases hw : s.engineWait with
      | zero => exact ⟨_, step_engine he (.inr hw), .engine op he (.inr hw)⟩
      | succ w =>
        obtain ⟨t, ht, hf⟩ := perform_effect a { s with pending := more, engineWait := w }
        exact ⟨t, (step_busy_cons he hp hw).trans ht, .host a more w t hp (.inr ⟨by simp [he], hw⟩) hf⟩

/-- The inversion of a step: whatever it answers is a listed effect. -/
theorem step_cases {s t : State} (h : step s = .next t) : StepEffect s t := by
  obtain ⟨t', ht', hf⟩ := step_effect s
  rw [ht'] at h
  cases h
  exact hf

/-- The inversion of a host action. -/
theorem perform_cases {a : HostAction} {s t : State} (h : perform a s = .next t) : HostEffect s a t := by
  obtain ⟨t', ht', hf⟩ := perform_effect a s
  rw [ht'] at h
  cases h
  exact hf

/-- The engine step is the end of the operation its result names. -/
theorem engineStep_ok {op : Op} {s : State} {r : Success} (h : engineResult op s = .ok r) :
    engineStep op s = finish r s := by simp [engineStep, h]

theorem engineStep_error {op : Op} {s : State} {x : Raise} (h : engineResult op s = .error x) :
    engineStep op s = raiseError x s := by simp [engineStep, h]

/-! ### Runs -/

theorem run_zero (s : State) : core.run 0 s = .next s := rfl

theorem coreRun_succ (M : Host.Core) {s t : M.State} (k : Nat) (h : M.step s = .next t) :
    M.run (k + 1) s = M.run k t := by
  rw [Host.Core.run, h]

/-- A run of one step more. -/
theorem run_succ {s t : State} (k : Nat) (h : step s = .next t) : core.run (k + 1) s = core.run k t :=
  coreRun_succ core k h

end Sys2Proof.Machine
end

