-- ==== Sys2Proof/Tests/Slice0.lean ====
section
/-! SUPPORT. Tests with results taken from the spec, and a witness for the hypotheses of every obligation. -/

namespace Sys2Proof

open Machine

/-! ### Well-formedness -/

theorem test_wellFormed_refuses_nop_as_illegal : (Instr.illegal 0x00 0).wellFormed = false := by decide
theorem test_wellFormed_refuses_clear_as_illegal : (Instr.illegal 0x03 0).wellFormed = false := by decide
theorem test_wellFormed_takes_reserved_bit : (Instr.illegal 0x00 1).wellFormed = true := by decide
theorem test_wellFormed_takes_opcode_four : (Instr.illegal 0x04 0).wellFormed = true := by decide

/-! ### Decoding: words written out bit by bit from 30_encoding.md R110, R111 (RSVD, then OPC) -/

theorem test_decode_nop : decode 0b00000000000000000000000000000000 = .nop := by decide
theorem test_decode_encode : decode 0b00000000000000000000000000000001 = .encode := by decide
theorem test_decode_decode : decode 0b00000000000000000000000000000010 = .decode := by decide
theorem test_decode_clear : decode 0b00000000000000000000000000000011 = .clear := by decide
theorem test_decode_illegal_opc : decode 0b00000000000000000000000010000001 = .illegal 0x81 0 := by decide
theorem test_decode_illegal_rsvd : decode 0b10000000000000000000000100000010 = .illegal 0x02 0x800001 := by decide
theorem test_encode_illegal : encode (.illegal 0x81 0x800001) = 0x80000181 := by decide
theorem test_decodeTableWord_wide : decodeTableWord 40 1 = none := by decide

/-! ### States -/

/-- A small build after reset. -/
def base : State := { State.reset with params := ⟨8, 4096, 32⟩ }

/-- The small build with an input loaded. -/
def loaded (chars : List Word) : State :=
  { base with inLen := BitVec.ofNat 32 chars.length, inMem := Memory.writeFrom [] 0 chars }

/-- A state with an operation running, `w` host actions before its engine step, and host actions to come. -/
def running (op : Op) (w : Nat) (acts : List HostAction) (s : State) : State :=
  { s with status := 0x1, engine := .busy op, engineWait := w, pending := acts }

/-- A state with host actions to come. -/
def withHost (acts : List HostAction) (s : State) : State := { s with pending := acts }

/-- The registers a result is compared by. -/
def report (s : State) : List Nat :=
  [s.status, s.errCode, s.errIndex, s.outLen, s.resPad, s.resCount, s.resDepth, s.resHdrBits, s.resPayloadBits].map
    BitVec.toNat

/-! ### One step per command -/

/-- 95_test_vectors.md V80. -/
theorem test_nop : exec .nop { base with status := 0x2 } = .next { base with status := 0x2 } := rfl

/-- 95_test_vectors.md V81. -/
theorem test_clear : exec .clear { base with status := 0xE, errCode := 0x202, errIndex := 7 } = .next base := rfl

/-- 95_test_vectors.md V85. -/
theorem test_clear_dropped : exec .clear (running .encode 0 [] base) =
    .next { running .encode 0 [] base with status := 0x9 } := rfl

/-- 95_test_vectors.md V82. -/
theorem test_illegal : exec (.illegal 0x04 0) { base with outLen := 3 } =
    .next { base with status := 0x6, errCode := 0x10A } := rfl

/-- 48_commands.md R359: BUSY stays 0, DROP is kept. -/
theorem test_illegal_keeps_drop : exec (.illegal 0xFF 0xFFFFFF) { base with status := 0x8 } =
    .next { base with status := 0xE, errCode := 0x10A } := rfl

/-- 95_test_vectors.md V1, the encode. -/
theorem test_encode_abracadabra :
    encodeChars 1048576 [0x41, 0x42, 0x52, 0x41, 0x4B, 0x41, 0x44, 0x41, 0x42, 0x52, 0x41] =
      .ok ⟨[0xA1, 0x78, 0x41, 0x88, 0x95, 0x2F, 0x21, 0x75, 0x26, 0xEA, 0x8D, 0xC0], 5, 5, 3, 68, 23⟩ := by
  decide

/-- 95_test_vectors.md V2, the registers after the engine step of ENCODE. -/
theorem test_encode_aaaa : report (engineStep .encode (running .encode 0 [] (loaded [0x41, 0x41, 0x41, 0x41]))) =
    [2, 0, 0, 3, 0, 1, 1, 20, 4] := by decide

/-- 95_test_vectors.md V1, the decode. -/
theorem test_decode_abracadabra :
    decodeBytes 1048576 [0xA1, 0x78, 0x41, 0x88, 0x95, 0x2F, 0x21, 0x75, 0x26, 0xEA, 0x8D, 0xC0] =
      .ok ⟨[0x41, 0x42, 0x52, 0x41, 0x4B, 0x41, 0x44, 0x41, 0x42, 0x52, 0x41], 5, 5, 3, 68, 23⟩ := by
  decide

/-- 48_commands.md R357: DECODE of no byte is TruncatedStreamError, stage HEADER. -/
theorem test_decode_nothing : report (engineStep .decode (running .decode 0 [] base)) =
    [6, 0x305, 0, 0, 0, 0, 0, 0, 0] := by decide

/-! ### Witnesses: states -/

theorem inEntry_lt (s : State) (h : s.params.charWidth = 32) (i : Nat) :
    (s.inEntry i).toNat < 2 ^ s.params.charWidth := by
  rw [h]
  exact (s.inEntry i).isLt

theorem base_inv : base.Inv where
  params := by decide
  status := ⟨by decide, by decide, by decide, by decide⟩
  report := ⟨by decide, by decide, by decide⟩
  results := fun _ => ⟨rfl, rfl, rfl, rfl, rfl, rfl⟩
  memories := ⟨rfl, rfl, inEntry_lt base rfl⟩
  draws := ⟨by decide, by decide⟩

theorem running_inv (op : Op) (w : Nat) (acts : List HostAction) : (running op w acts base).Inv where
  params := base_inv.params
  status := ⟨by simp [running], by simp [running, State.busy], fun _ => ⟨by simp [running, State.done], by simp [running, State.err]⟩,
    by simp [running, State.err]⟩
  report := ⟨fun _ => rfl, by simp [running, base, State.reset, legalErrCodes], fun h => absurd rfl h⟩
  results := fun _ => ⟨rfl, rfl, rfl, rfl, rfl, rfl⟩
  memories := ⟨rfl, rfl, inEntry_lt (running op w acts base) rfl⟩
  draws := ⟨by simp [running, base, State.reset], by simp [running, base, State.reset]⟩

/-- A state in which every result register holds a value a success can leave. -/
def succeeded : State :=
  { base with status := 0x2, outLen := 3, resCount := 1, resDepth := 1, resHdrBits := 20, resPayloadBits := 4 }

theorem succeeded_inv : succeeded.Inv where
  params := base_inv.params
  status := ⟨by decide, by decide, by decide, by decide⟩
  report := ⟨by decide, by decide, by decide⟩
  results := fun h => absurd ⟨rfl, rfl⟩ h
  memories := base_inv.memories
  draws := base_inv.draws

/-! ### Witnesses: reset, the invariant, steps -/

theorem witness_ReadyAtOnceAfterReset : ∃ t, perform .reset (running .encode 3 [] base) = .next t := ⟨_, rfl⟩

theorem witness_StepKeepsInv :
    (running .encode 0 [] base).Inv ∧ ∃ t, step (running .encode 0 [] base) = .next t :=
  ⟨running_inv .encode 0 [], _, rfl⟩

theorem witness_StepKeepsResultWidths : succeeded.Inv ∧ ResultWidthsOk succeeded ∧ ∃ t, step succeeded = .next t :=
  ⟨succeeded_inv, ⟨by decide, by decide, by decide, by decide, fun _ => by decide⟩, _, rfl⟩

theorem witness_DecodeInvertsTheEncoder : (Instr.illegal 0x04 0).wellFormed = true ∧ Instr.nop.wellFormed = true := by
  decide

theorem witness_StepRunsTheCommandWord :
    decodeTableWord 32 1 = some .encode ∧ decodeTableWord 32 4 = some (.illegal 4 0) := by decide

theorem witness_StepIssuesTheWrittenWord :
    (withHost [writeCmd 3, pollIdle] base).pending = .tx (.regWrite 1 3) :: [pollIdle] ∧
    (withHost [writeCmd 3, pollIdle] base).engine = .idle ∧
    (running .encode 1 [writeCmd 3] base).pending = .tx (.regWrite 1 3) :: [] ∧
    (running .encode 1 [writeCmd 3] base).engine = .busy .encode ∧
    (running .encode 1 [writeCmd 3] base).engineWait = 0 + 1 := by decide

theorem witness_EngineStepFallsBetweenHostActions :
    ((running .decode 5 [] base).engine = .busy .decode ∧ (running .decode 5 [] base).pending = []) ∧
    ((running .decode 0 [pollIdle] base).engine = .busy .decode ∧ (running .decode 0 [pollIdle] base).engineWait = 0) ∧
    ((running .decode 1 [pollIdle] base).pending = pollIdle :: [] ∧
      (running .decode 1 [pollIdle] base).engineWait = 0 + 1) ∧
    ((withHost [pollIdle] base).engine = .idle ∧ (withHost [pollIdle] base).pending = pollIdle :: []) ∧
    base.engine = .idle ∧ base.pending = [] := by decide

theorem witness_RunningOperationEnds :
    (running .encode 2 [pollIdle] base).Inv ∧ (running .encode 2 [pollIdle] base).busy = true :=
  ⟨running_inv .encode 2 [pollIdle], rfl⟩

theorem witness_PollingSeesTheEnd :
    (running .decode 2 [pollIdle, writeCmd 3] base).Inv ∧ (running .decode 2 [pollIdle, writeCmd 3] base).busy = true ∧
      (running .decode 2 [pollIdle, writeCmd 3] base).pending = pollIdle :: [writeCmd 3] :=
  ⟨running_inv .decode 2 _, rfl, rfl⟩

/-! ### Witnesses: host transactions -/

/-- Every register number the clauses of RegRead name is a number, and 15 and 255 bound the reserved ones. -/
theorem witness_RegReadReturnsTheRegister : 15 ≤ (15 : BitVec 8).toNat ∧ 15 ≤ (255 : BitVec 8).toNat ∧
    ¬15 ≤ (14 : BitVec 8).toNat := by decide

theorem witness_RegWriteFollowsItsRule :
    (running .encode 0 [] base).busy = true ∧ base.busy = false ∧
      ((0 : BitVec 8) ≠ 1 ∧ (0 : BitVec 8) ≠ 5) ∧ ((4 : BitVec 8) ≠ 1 ∧ (4 : BitVec 8) ≠ 5) ∧
      ((255 : BitVec 8) ≠ 1 ∧ (255 : BitVec 8) ≠ 5) := by decide

theorem witness_WritesToReadOnlyPlacesDoNothing :
    (4 : BitVec 8).toNat ∈ [0, 2, 3, 4] ∧ (6 ≤ (6 : BitVec 8).toNat ∧ (6 : BitVec 8).toNat ≤ 14) ∧
      (6 ≤ (14 : BitVec 8).toNat ∧ (14 : BitVec 8).toNat ≤ 14) ∧ 15 ≤ (15 : BitVec 8).toNat := by decide

theorem witness_InWriteFollowsItsRule :
    (running .encode 0 [] base).busy = true ∧
      (base.busy = false ∧ base.params.maxIn ≤ (8 : Word).toNat) ∧
      (base.busy = false ∧ (7 : Word).toNat < base.params.maxIn ∧ 0 ≠ (7 : Word).toNat) := by decide

theorem witness_InReadReturnsTheEntry :
    (7 : Word).toNat < base.params.maxIn ∧ ¬(8 : Word).toNat < base.params.maxIn := by decide

theorem witness_OutReadFollowsItsRule :
    base.params.maxOut ≤ (4096 : Word).toNat ∧
      ((4095 : Word).toNat < base.params.maxOut ∧ base.busy = false) ∧
      ((4095 : Word).toNat < (running .encode 0 [] base).params.maxOut ∧ (running .encode 0 [] base).busy = true) := by
  decide

theorem witness_ReadsWhileBusy : (running .decode 0 [] base).Inv ∧ (running .decode 0 [] base).busy = true ∧
    (3 : BitVec 8).toNat ∈ [3, 4, 6, 7, 8, 9, 10, 11] ∧ (11 : BitVec 8).toNat ∈ [3, 4, 6, 7, 8, 9, 10, 11] :=
  ⟨running_inv .decode 0 [], rfl, by decide, by decide⟩

/-! ### Witnesses: commands -/

theorem witness_NopChangesNothing : base.busy = false ∧ (running .encode 0 [] base).busy = true := by decide

theorem witness_EncodeAndDecodeAreAccepted : succeeded.busy = false := by decide

theorem witness_ClearZeroesStatusReportAndResults :
    succeeded.busy = false ∧ (running .decode 0 [] base).busy = true := by decide

theorem witness_IllegalWordReportsIllegalCommand : 4 ≤ (4 : Word).toNat ∧ 4 ≤ (0xFFFFFFFF : Word).toNat ∧
    succeeded.busy = false := by decide

theorem witness_DropIsSticky :
    (running .encode 0 [] base).busy = true ∧
    (∃ t, step { base with status := 0x8, pending := [writeCmd 3] } = .next t ∧ t.drop = false ∧
      State.drop { base with status := 0x8, pending := [writeCmd 3] } = true) ∧
    (∃ t, step { base with status := 0x8, pending := [.reset] } = .next t ∧ t.drop = false) ∧
    ∃ t, base.busy = false ∧ exec .encode base = .next t :=
  ⟨rfl, ⟨_, rfl, rfl, rfl⟩, ⟨_, rfl, rfl⟩, _, rfl, rfl⟩

/-! ### Witnesses: the engine step -/

theorem witness_SuccessfulEngineStep :
    (∃ r, engineResult .encode (loaded [0x41]) = .ok r) ∧ (running .encode 0 [] base).Inv ∧
      (running .encode 0 [] base).engine = .busy .encode := by
  have h : engineResult .encode (loaded [0x41]) =
      .ok ⟨[0x60, 0x64, 0x10], 3, 1, 1, 20, 1⟩ := by decide
  exact ⟨⟨_, h⟩, running_inv .encode 0 [], rfl⟩

theorem witness_FailedEngineStep :
    engineResult .encode (loaded [0x41, 0x100]) = .error ⟨.unsupportedSymbol, .input, 1⟩ ∧
      engineResult .decode (loaded [0x41]) = .error ⟨.truncatedStream, .header, 0⟩ := by decide

theorem witness_InputLengthIsCheckedFirst : base.params.maxIn < (9 : Word).toNat ∧
    State.inLen { base with inLen := 9 } = 9 := by decide

theorem witness_EmptyInputIsRejected : base.inLen = 0 := rfl

theorem witness_UnsupportedSymbolNamesTheFirstIndex :
    (loaded [0xFF, 0x100]).inLen.toNat ≤ (loaded [0xFF, 0x100]).params.maxIn ∧
      1 < (loaded [0xFF, 0x100]).inLen.toNat ∧ 255 < ((loaded [0xFF, 0x100]).inEntry 1).toNat ∧
      ∀ j < 1, ((loaded [0xFF, 0x100]).inEntry j).toNat ≤ 255 := by decide

/-- 128 distinct symbols. -/
def wideInput : State :=
  { base with
    params := ⟨128, 4096, 32⟩
    inLen := 128
    inMem := (List.range 128).map fun k => (k, BitVec.ofNat 32 k) }

theorem witness_AlphabetTooLargeIsRejected :
    wideInput.inLen.toNat ≤ wideInput.params.maxIn ∧
      (∀ i < wideInput.inLen.toNat, (wideInput.inEntry i).toNat ≤ 255) ∧
      128 ≤ ((inputChars wideInput).map symbolOf).dedup.length := by decide +kernel

theorem witness_TinyBufferIsTruncated : (base.inLen.toNat ≤ 1 ∧ base.inLen.toNat ≤ base.params.maxIn) ∧
    (loaded [0xFF]).inLen.toNat ≤ 1 ∧ (loaded [0xFF]).inLen.toNat ≤ (loaded [0xFF]).params.maxIn := by decide

theorem witness_ResultDependsOnTheInputOnly :
    let s := loaded [0x41]
    let t := { loaded [0x41] with outMem := [(0, 0x55)], draws := 9 }
    s ≠ t ∧ s.params = t.params ∧ s.inLen = t.inLen ∧ ∀ i < s.inLen.toNat, s.inEntry i = t.inEntry i := by
  decide

theorem witness_HostCannotDisturbARunningOperation :
    (running .encode 0 [] base).Inv ∧ (running .encode 0 [] base).engine = .busy .encode ∧
      HostAction.tx (.inWrite 0 5) ≠ .reset ∧
      ∃ t, perform (.tx (.inWrite 0 5)) (running .encode 0 [] base) = .next t :=
  ⟨running_inv .encode 0 [], rfl, by decide, _, rfl⟩

/-! ### Witnesses: whole-machine rules -/

theorem witness_OnlyTheEngineWritesOutMem :
    let s := { running .encode 0 [] (loaded [0x41]) with outMem := [(0, 0)] }
    ∃ t, step s = .next t ∧ ∃ i, t.outByte i ≠ s.outByte i := by
  refine ⟨_, rfl, 0, ?_⟩
  decide

theorem witness_OnlyTheHostWritesTheInput :
    (∃ t, step (withHost [writeInLen 4] base) = .next t ∧ t.inLen ≠ (withHost [writeInLen 4] base).inLen) ∧
    (∃ t, step (withHost [.tx (.inWrite 0 0x42)] (loaded [0x41])) = .next t ∧
      t.inEntry 0 ≠ (withHost [.tx (.inWrite 0 0x42)] (loaded [0x41])).inEntry 0) ∧
    ∃ t, step (withHost [.inWriteReply 0] (loaded [0x41])) = .next t ∧
      t.inEntry 0 ≠ (withHost [.inWriteReply 0] (loaded [0x41])).inEntry 0 :=
  ⟨⟨_, rfl, by decide⟩, ⟨_, rfl, by decide⟩, _, rfl, by decide⟩

theorem witness_PhaseChangesByCommandEngineOrReset :
    (∃ t, step (withHost [writeCmd 1] base) = .next t ∧ base.engine = .idle ∧ t.engine ≠ .idle) ∧
    (∃ t, step (withHost [writeCmd 2] base) = .next t ∧ t.engine ≠ .idle) ∧
    (∃ t, step (running .encode 0 [] base) = .next t ∧ t.engine ≠ .busy .encode ∧
      (running .encode 0 [] base).busy = true) ∧
    ∃ t, step (running .encode 1 [.reset] base) = .next t ∧ t.engine ≠ .busy .encode :=
  ⟨⟨_, rfl, rfl, by decide⟩, ⟨_, rfl, by decide⟩, ⟨_, rfl, by decide, rfl⟩, _, rfl, by decide⟩

theorem witness_CapabilitiesAreConstant : ∃ t, step (withHost [.reset] base) = .next t := ⟨_, rfl⟩

/-! ### Witnesses: the stages of ENCODE -/

theorem witness_PopMinTakesTheFirstSmallest : [QEntry.mk (.leaf 0x41) 2 0, ⟨.leaf 0x42, 2, 1⟩] ≠ [] := by decide

theorem witness_BuildGivesAFullTree :
    freqTable [0x41, 0x42] ≠ [] ∧ freqTable [0x41] ≠ [] ∧
    ∃ a b q₁ q₂, popMin (leafQueue [(0x41, 1), (0x42, 1)] 0) = some (a, q₁) ∧ popMin q₁ = some (b, q₂) :=
  ⟨by decide, by decide, ⟨.leaf 0x41, 1, 0⟩, ⟨.leaf 0x42, 1, 1⟩, [⟨.leaf 0x42, 1, 1⟩], [], by decide, by decide⟩

theorem witness_CodesArePrefixFree : FullTree (.leaf 0x41) ∧ FullTree (.internal (.leaf 0x41) (.leaf 0x42)) :=
  ⟨trivial, trivial, trivial⟩

theorem witness_CodesFillTheCodeSpace : FullTree (.leaf 0x41) ∧ FullTree (.internal (.leaf 0x42) (.leaf 0x43)) :=
  ⟨trivial, trivial, trivial⟩

/-- 95_test_vectors.md V2 has 20 - 3 header bits and 4 payload bits, 3 bytes. -/
theorem witness_PackedStreamIsByteAligned :
    let total := 3 + (zeros 17).length + (zeros 4).length + (8 - (3 + (zeros 17).length + (zeros 4).length) % 8) % 8
    2 < total / 8 ∧ total / 8 ≤ 3 := by decide

theorem witness_EncodedBytesFollowTheWireFormat :
    encodeChars 4096 [0x41, 0x42] = .ok ⟨[0x20, 0xA4, 0x1A, 0x12], 1, 2, 1, 29, 2⟩ := by decide

/-! ### Witnesses: the stages of DECODE -/

/-- The small build with an input loaded and a chosen MAX_OUT. -/
def loadedOut (maxOut : Nat) (chars : List Word) : State := { loaded chars with params := ⟨8, maxOut, 32⟩ }

/-- 95_test_vectors.md V40, V42, V43, V44 (truncated) and V45, V46, V47 (malformed; V47's marker has 128 bits). -/
theorem witness_HeaderErrorsAreReported :
    TruncatedHeader (unpack []) ∧ TruncatedHeader (unpack [0xE0]) ∧ TruncatedHeader (unpack [0xE0, 0x00]) ∧
    TruncatedHeader (unpack (inputBytes (loaded [0x00, 0x64]))) ∧
    (loaded [0x00, 0x64]).inLen.toNat ≤ (loaded [0x00, 0x64]).params.maxIn ∧
    MalformedHeader (unpack [0x1F, 0xFF]) ∧ MalformedHeader (unpack (inputBytes (loaded [0x00, 0x00]))) ∧
    (loaded [0x00, 0x00]).inLen.toNat ≤ (loaded [0x00, 0x00]).params.maxIn ∧
    MalformedHeader (bitsOf 3 0 ++ bitsOf 7 1 ++ ones 128 ++ false :: [] ++ []) :=
  ⟨.inl (by decide),
   .inr (.inl ⟨bitsOf 3 7, zeros 5, by decide, by decide, by decide⟩),
   .inr (.inr (.inl ⟨bitsOf 3 7, zeros 6, zeros 7, by decide, by decide, by decide, by decide⟩)),
   .inr (.inr (.inr ⟨bitsOf 3 0, bitsOf 7 1, bitsOf 4 4, [], 1, by decide, by decide, by decide,
     by decide, by decide, by decide, by decide⟩)),
   by decide,
   ⟨bitsOf 3 0, bitsOf 7 127, [], 6, by decide, by decide, by decide, .inl (by decide)⟩,
   ⟨bitsOf 3 0, bitsOf 7 0, [], 0, by decide, by decide, by decide, .inr ⟨.inl rfl, zeros 5, by decide⟩⟩,
   by decide,
   ⟨bitsOf 3 0, bitsOf 7 1, [], 128, by decide, by decide, by decide, .inr ⟨.inr (by decide), [], rfl⟩⟩⟩

theorem witness_ShortEntriesAreTruncated :
    ((bitsOf 3 7).length = 3 ∧ (bitsOf 7 1).length = 7 ∧ (zeros 7).length = uintOf (bitsOf 3 7)) ∧
    (1 ≤ 1 ∧ 1 ≤ 127 ∧ (zeros 7).length + 1 < uintOf (bitsOf 7 1) * (1 + 8)) ∧
    (1 ≤ 127 ∧ 127 ≤ 127 ∧ (zeros 133).length + 1 < uintOf (bitsOf 7 1) * (127 + 8)) ∧
    (loaded [0x00, 0x64]).inLen.toNat ≤ (loaded [0x00, 0x64]).params.maxIn ∧
    unpack (inputBytes (loaded [0x00, 0x64])) = bitsOf 3 0 ++ bitsOf 7 1 ++ ones 1 ++ false :: bitsOf 4 4 ++ [] := by
  decide +kernel

theorem witness_ParseInvertsSerialize :
    let table : List (Byte × Bits) := [(0x41, [false]), (0x42, [true])]
    table = (0x41, [false]) :: [(0x42, [true])] ∧ table.length ≤ 127 ∧ 1 ≤ 1 ∧ 1 ≤ 127 ∧
      (∀ p ∈ table, p.2.length ≤ 1) ∧ ([false] : Bits).head? ≠ some true ∧ (ones 7).length < 8 := by decide

theorem witness_LaterDuplicateEntryWins :
    ([false, true] : Bits) ≠ [] ∧
      ∀ p ∈ [(([true, true], 0x41) : Bits × Byte)] ++ [([false, true], 0x42)] ++ [([false, false], 0x43)],
        p.1.length = ([false, true] : Bits).length := by decide

/-- The trees of the spec's corner cases: a left chain that ends in a leaf, one that meets a right-only node, and
95_test_vectors.md V63, whose left chain meets a node without a left child. -/
theorem witness_CollapseFollowsItsRules :
    descend (.internal (.leaf 0x41) (.leaf 0x42)) = .ok 0x41 ∧
    descend (.internal (.internal .absent (.leaf 0x42)) .absent) = .error ⟨.invalidPath, .tree, 0⟩ ∧
    (Tree.leaf 0x41 ≠ .absent ∧ collapse (.leaf 0x41) false = .ok (.leaf 0x41)) ∧
    collapse (.internal (.internal .absent (.leaf 0x42)) .absent) false = .error ⟨.invalidPath, .tree, 0⟩ ∧
    ((∀ p ∈ [(([false], 0x41) : Bits × Byte)], p.1 ≠ []) ∧
      reconstruct [([false], 0x41)] = .ok (.internal (.leaf 0x41) .absent)) ∧
    (loaded [0xE0, 0x79, 0x41, 0x00]).inLen.toNat ≤ (loaded [0xE0, 0x79, 0x41, 0x00]).params.maxIn ∧
    parseHeader (unpack (inputBytes (loaded [0xE0, 0x79, 0x41, 0x00]))) =
      .ok ⟨7, 1, 3, [([false, false, true], 0x41)], 24, 25⟩ ∧
    reconstruct [([false, false, true], 0x41)] = .error ⟨.invalidPath, .tree, 0⟩ := by decide

theorem witness_ReconstructionRecoversTheTree :
    FullTree (.leaf 0x41) ∧ FullTree (.internal (.internal (.leaf 0x42) (.leaf 0x43)) (.leaf 0x44)) :=
  ⟨trivial, ⟨trivial, trivial⟩, trivial⟩

/-- 95_test_vectors.md V64. -/
theorem witness_CountZeroEndsInInvalidPath :
    (loaded [0x80, 0x20]).inLen.toNat ≤ (loaded [0x80, 0x20]).params.maxIn ∧
      ∃ h, parseHeader (unpack (inputBytes (loaded [0x80, 0x20]))) = .ok h ∧ h.count = 0 := by
  have h : parseHeader (unpack (inputBytes (loaded [0x80, 0x20]))) = .ok ⟨4, 0, 1, [], 11, 12⟩ := by decide
  exact ⟨by decide, _, h, rfl⟩

/-- The tree of 95_test_vectors.md V3, "AB", as the right child of a third leaf. -/
def smallRight : Tree := .internal (.leaf 0x42) (.leaf 0x43)

theorem witness_WalkReadsCodeByCode :
    childAt (.internal (.leaf 0x41) .absent) true = .absent ∧
    FullTree (.leaf 0x41) ∧ FullTree smallRight ∧
    ((codeTable (.internal (.leaf 0x41) smallRight)).map Prod.fst).Nodup ∧
    (∀ s ∈ [(0x41 : Byte), 0x43], s ∈ (codeTable (.internal (.leaf 0x41) smallRight)).map Prod.fst) ∧
    [(0x41 : Byte), 0x43].length ≤ 2 ∧ 1 < [(0x41 : Byte), 0x43].length ∧
    ([true] : Bits) ≠ [] ∧ ([false] : Bits) ≠ [] ∧
    ((0x42 : Byte), ([true] ++ [false] : Bits)) ∈ codeTable (.internal (.leaf 0x41) smallRight) :=
  ⟨rfl, trivial, ⟨trivial, trivial⟩, by decide, by decide, by decide, by decide, by decide, by decide, by decide⟩

/-- 95_test_vectors.md V70: the walk of a one-symbol tree meets a 1 bit. -/
theorem witness_WalkReadsCodeByCode_invalidPath :
    let s := loaded [0x40, 0x64, 0x14]
    s.inLen.toNat ≤ s.params.maxIn ∧
      parseHeader (unpack (inputBytes s)) = .ok ⟨2, 1, 1, [([false], 0x41)], 20, 22⟩ ∧
      reconstruct [([false], 0x41)] = .ok (.internal (.leaf 0x41) .absent) ∧
      walk (.internal (.leaf 0x41) .absent) s.params.maxOut (slice (unpack (inputBytes s)) 20 22)
        (.internal (.leaf 0x41) .absent) 0 = .error ⟨.invalidPath, .payload, 0⟩ := by decide

/-- The codes of the symbols 0x41 and 0x43, then a part of the code of 0x42. -/
theorem witness_WalkReadsCodeByCode_unexpectedEnd :
    let s := loaded [0x40, 0xF1, 0x06, 0x42, 0xD0, 0xDC]
    let table := codeTable (.internal (.leaf 0x41) smallRight)
    let root := Tree.internal (.leaf 0x41) smallRight
    s.inLen.toNat ≤ s.params.maxIn ∧ table.length ≤ 127 ∧ codeDepth table ≤ 127 ∧ (zeros 2).length < 8 ∧
      2 ≤ s.params.maxOut ∧
      unpack (inputBytes s) = bitsOf 3 (zeros 2).length ++ serializeHeader table (codeDepth table) ++
        (encodePayload table [0x41, 0x43] ++ [true]) ++ zeros 2 ∧
      walk root s.params.maxOut (slice (unpack (inputBytes s)) 42 46) root 0 =
        .error ⟨.unexpectedEndOfStream, .payload, 0⟩ := by decide +kernel

/-- Two symbols where one fits. -/
theorem witness_WalkReadsCodeByCode_overflow :
    let s := loadedOut 1 [0x60, 0xF1, 0x06, 0x42, 0xD0, 0xD8]
    let table := codeTable (.internal (.leaf 0x41) smallRight)
    let root := Tree.internal (.leaf 0x41) smallRight
    s.inLen.toNat ≤ s.params.maxIn ∧ s.params.maxOut < [(0x41 : Byte), 0x43].length ∧
      unpack (inputBytes s) = bitsOf 3 (zeros 3).length ++ serializeHeader table (codeDepth table) ++
        (encodePayload table [0x41, 0x43] ++ []) ++ zeros 3 ∧
      walk root s.params.maxOut (slice (unpack (inputBytes s)) 42 45) root 0 =
        .error ⟨.outputOverflow, .output, 0⟩ := by decide +kernel

/-! ### Witnesses: whole operations -/

/-- 95_test_vectors.md V36 (AAAA exactly fits MAX_OUT = 3) and V35 (AB needs 4 bytes where MAX_OUT = 3). -/
theorem witness_EncodeRunsToSuccess :
    let s := loadedOut 3 [0x41, 0x41, 0x41, 0x41]
    let u := loadedOut 3 [0x41, 0x42]
    let streamLength := fun chars : List Word =>
      let table := codeTable (build (freqTable (chars.map symbolOf)))
      (streamBits (serializeHeader table (codeDepth table)) (encodePayload table (chars.map symbolOf))).length
    (s.busy = false ∧ s.pending = [] ∧ s.inLen.toNat ≤ s.params.maxIn ∧ ValidChars (inputChars s) ∧
      streamLength (inputChars s) / 8 ≤ s.params.maxOut) ∧
    u.busy = false ∧ u.pending = [] ∧ u.inLen.toNat ≤ u.params.maxIn ∧ ValidChars (inputChars u) ∧
      u.params.maxOut < streamLength (inputChars u) / 8 := by
  have hs : inputChars (loadedOut 3 [0x41, 0x41, 0x41, 0x41]) = [0x41, 0x41, 0x41, 0x41] := by decide
  have hu : inputChars (loadedOut 3 [0x41, 0x42]) = [0x41, 0x42] := by decide
  have hvs : ValidChars [0x41, 0x41, 0x41, 0x41] := ⟨by simp, by simp, by decide⟩
  have hvu : ValidChars [0x41, 0x42] := ⟨by simp, by simp, by decide⟩
  dsimp only
  rw [hs, hu]
  exact ⟨⟨rfl, rfl, by decide, hvs, by decide +kernel⟩, rfl, rfl, by decide, hvu, by decide +kernel⟩

/-- The buffer is that of 95_test_vectors.md V3. -/
theorem witness_DecodeRunsToSuccess :
    let s := loaded [0x20, 0xA4, 0x1A, 0x12]
    let tree := Tree.internal (.leaf 0x41) (.leaf 0x42)
    let table := codeTable tree
    s.busy = false ∧ s.pending = [] ∧ s.inLen.toNat ≤ s.params.maxIn ∧ FullTree tree ∧
      (table.map Prod.fst).Nodup ∧ table.length ≤ 127 ∧ codeDepth table ≤ 127 ∧
      (∀ x ∈ [(0x41 : Byte), 0x42], x ∈ table.map Prod.fst) ∧ [(0x41 : Byte), 0x42].length ≤ s.params.maxOut ∧
      unpack (inputBytes s) =
        streamBits (serializeHeader table (codeDepth table)) (encodePayload table [0x41, 0x42]) :=
  ⟨by decide, by decide, by decide, ⟨trivial, trivial⟩, by decide, by decide, by decide, by decide, by decide,
    by decide⟩

theorem witness_DecodeInvertsEncode :
    let s := loaded [0x41, 0x42]
    let t := loaded [0x20, 0xA4, 0x1A, 0x12]
    let u := engineStep .encode s
    s.params.Legal ∧ t.params = s.params ∧ u.err = false ∧ t.inLen = u.outLen ∧ u.outLen.toNat ≤ t.params.maxIn ∧
      s.inLen.toNat ≤ t.params.maxOut ∧
      ∀ k < u.outLen.toNat, (t.inEntry k).extractLsb' 0 8 = u.outByte k := by decide

theorem witness_DefaultBuildNeverOverflows : State.reset.params = Config.defaultParams ∧
    engineResult .encode State.reset = .error ⟨.emptyInput, .input, 0⟩ ∧
    engineResult .decode State.reset = .error ⟨.truncatedStream, .header, 0⟩ := by decide

end Sys2Proof
end

section
/-! The state's own rules (10_state.md R33, R39, R44): when a write is dropped, what can clear DROP, and that the
parameters stay. -/

namespace Sys2Proof.Machine

/-! ### A write while BUSY = 1 -/

/-- Whatever the instruction, issuing it while BUSY = 1 is a dropped write (48_commands.md R350). -/
theorem exec_busy (i : Instr) {s : State} (hb : s.busy = true) : exec i s = .next (dropWrite s) := by
  rw [exec_eq, if_pos hb]

theorem regWrite_cmd (v : Word) (s : State) : regWrite 1 v s = exec (decode v) s := rfl

theorem regWrite_inLen_busy (v : Word) {s : State} (hb : s.busy = true) : regWrite 5 v s = .next (dropWrite s) := by
  simp [regWrite, hb]

theorem inWrite_busy (i v : Word) {s : State} (hb : s.busy = true) : inWrite i v s = dropWrite s := by
  simp [inWrite, hb]

/-- The three places a host write can be dropped at, under one conclusion (10_state.md R39). -/
theorem transact_busy_write {t : HostTx} {s : State} (hb : s.busy = true)
    (ht : (∃ v, t = .regWrite 1 v) ∨ (∃ v, t = .regWrite 5 v) ∨ ∃ i v, t = .inWrite i v) :
    transact t s = .next (dropWrite s) := by
  rcases ht with ⟨v, rfl⟩ | ⟨v, rfl⟩ | ⟨i, v, rfl⟩
  · exact (regWrite_cmd v s).trans (exec_busy _ hb)
  · exact regWrite_inLen_busy v hb
  · exact congrArg Host.Outcome.next (inWrite_busy i v hb)

/-! ### What clears DROP -/

/-- CLEAR has exactly one word (30_encoding.md R111, R112). -/
theorem decode_eq_clear {v : Word} : decode v = .clear ↔ v = 3 := by
  constructor
  · intro h
    rw [decode_eq] at h
    refine BitVec.eq_of_toNat_eq (?_ : v.toNat = 3)
    split_ifs at h
    assumption
  · rintro rfl
    decide

/-- Of the effects of a host action, only CLEAR's and reset's write a 0 to DROP (10_state.md R39). -/
theorem HostEffect.clear_or_reset_of_drop {s t : State} {a : HostAction} (h : HostEffect s a t)
    (hs : s.drop = true) (ht : t.drop = false) : a = .tx (.regWrite 1 3) ∨ a = .reset := by
  have kept : t.drop = s.drop → a = .tx (.regWrite 1 3) ∨ a = .reset := fun h => by simp [h, hs] at ht
  cases h with
  | cleared n v hb hn hv => exact .inl (by rw [regName_eq_cmd.mp hn, decode_eq_clear.mp hv])
  | reset => exact .inr rfl
  | dropped => simp at ht
  | accepted op => exact kept (accept_drop s op)
  | illegal => exact kept (rejectIllegal_drop s)
  | unchanged | inLen | inMem | answered | drawn | polled => exact kept rfl

/-- A step that clears DROP takes CLEAR or reset from the host: rest and the engine step keep DROP (10_state.md R39). -/
theorem StepEffect.clear_or_reset_of_drop {s t : State} (h : StepEffect s t) (hs : s.drop = true)
    (ht : t.drop = false) :
    (∃ rest, s.pending = .tx (.regWrite 1 3) :: rest) ∨ ∃ rest, s.pending = .reset :: rest := by
  cases h with
  | rest => simp [hs] at ht
  | engine op =>
    obtain ⟨-, -, hdrop, -⟩ := engineStep_spec op s
    simp [hdrop, hs] at ht
  | host a more w _ hp _ he =>
    rcases he.clear_or_reset_of_drop (by simpa using hs) ht with rfl | rfl
    · exact .inl ⟨more, hp⟩
    · exact .inr ⟨more, hp⟩

/-- ENCODE and DECODE are accepted when issued while BUSY = 0 (48_commands.md R351). -/
theorem eq_accept_of_exec {s t : State} (hb : s.busy = false)
    (h : exec .encode s = .next t ∨ exec .decode s = .next t) : ∃ op, t = accept op s := by
  simp only [exec_eq, hb, Bool.false_eq_true, if_false, Host.Outcome.next.injEq] at h
  rcases h with h | h
  · exact ⟨.encode, h.symm⟩
  · exact ⟨.decode, h.symm⟩

/-! ### What keeps the parameters -/

theorem HostEffect.params_eq {s t : State} {a : HostAction} (h : HostEffect s a t) : t.params = s.params := by
  cases h <;> rfl

theorem StepEffect.params_eq {s t : State} (h : StepEffect s t) : t.params = s.params := by
  cases h with
  | rest => rfl
  | engine op =>
    obtain ⟨-, -, -, -, -, -, -, hparams, -⟩ := engineStep_spec op s
    exact hparams
  | host a more w _ _ _ he => exact he.params_eq

/-! ### The obligations -/

/-- Settles O28: every dropped write is `dropWrite`, and the inversion of a step names what clears DROP. -/
theorem dropIsSticky : Obligations.DropIsSticky := by
  unfold Obligations.DropIsSticky
  refine ⟨fun s t hb ht => ?_, fun s i hb => ?_, fun s t h hs ht => ?_, fun s t hb h => ?_⟩
  · exact ⟨_, transact_busy_write hb ht, dropWrite_dropped s⟩
  · exact ⟨_, exec_busy i hb, dropWrite_dropped s⟩
  · exact (step_cases h).clear_or_reset_of_drop hs ht
  · obtain ⟨op, rfl⟩ := eq_accept_of_exec hb h
    exact accept_drop s op

/-- Settles O41: the reads are the equations of `readReg`, and each effect of a step keeps the parameters. -/
theorem capabilitiesAreConstant : Obligations.CapabilitiesAreConstant := by
  unfold Obligations.CapabilitiesAreConstant
  exact ⟨fun s => ⟨rfl, rfl, rfl, rfl⟩, fun s t h => (step_cases h).params_eq⟩

end Sys2Proof.Machine
end

section
/-! The six transactions of the host port (20_memory.md R82 to R88): what each answers and what it leaves, one equation
per branch of its rule. -/

namespace Sys2Proof.Machine

/-! ### Registers -/

/-- The reserved register numbers are 15 to 255 (10_state.md R32, R47). -/
theorem regName_eq_reserved {n : BitVec 8} : regName n = .reserved ↔ 15 ≤ n.toNat := by
  revert n
  decide

theorem regWrite_inLen_idle (v : Word) {s : State} (hb : s.busy = false) :
    regWrite 5 v s = .next { s with inLen := v } := by
  simp [regWrite, hb]

/-- CMD and IN_LEN are the only registers a write reaches (20_memory.md R83, R84). -/
theorem regWrite_of_ne {n : BitVec 8} (v : Word) (s : State) (hcmd : n ≠ 1) (hlen : n ≠ 5) :
    regWrite n v s = .next s := by
  rw [regWrite, if_neg (mt regName_eq_cmd.mp hcmd), if_neg (mt regName_eq_inLen.mp hlen)]

/-! ### IN_MEM -/

/-- `charBits_toNat` for every CHAR_WIDTH: from 32 up, the whole word is kept. -/
theorem charBits_toNat_eq_mod (p : Config.Params) (v : Word) :
    (charBits p v).toNat = v.toNat % 2 ^ p.charWidth := by
  rcases Nat.le_total p.charWidth 32 with h | h
  · exact charBits_toNat p h v
  · have hall : BitVec.ofNat 32 (2 ^ p.charWidth - 1) = BitVec.allOnes 32 :=
      BitVec.eq_of_getLsbD_eq fun j hj => by
        rw [BitVec.getLsbD_ofNat, Nat.testBit_two_pow_sub_one, BitVec.getLsbD_allOnes]
        simp [hj, hj.trans_le h]
    have hv : v.toNat < 2 ^ p.charWidth := v.isLt.trans_le (Nat.pow_le_pow_right (by decide) h)
    rw [charBits, hall, BitVec.and_allOnes, Nat.mod_eq_of_lt hv]

theorem inWrite_of_ge {i : Word} (v : Word) {s : State} (hb : s.busy = false) (hi : s.params.maxIn ≤ i.toNat) :
    inWrite i v s = s := by
  simp [inWrite, hb, hi]

theorem inWrite_of_lt {i : Word} (v : Word) {s : State} (hb : s.busy = false) (hi : i.toNat < s.params.maxIn) :
    inWrite i v s = { s with inMem := Memory.write s.inMem i.toNat (charBits s.params v) } := by
  simp [inWrite, hb, hi]

/-- IN_MEM read after one entry is written. -/
theorem inEntry_write (s : State) (i j : Nat) (x : Word) :
    State.inEntry { s with inMem := Memory.write s.inMem i x } j = if i = j then x else s.inEntry j := by
  rw [State.inEntry, Memory.cell?_write]
  by_cases h : i = j
  · rw [if_pos h, if_pos h, Option.getD_some]
  · rw [if_neg h, if_neg h, State.inEntry]

/-! ### OUT_MEM -/

theorem outRead_of_ge {i : Word} {s : State} (hi : s.params.maxOut ≤ i.toNat) : outRead i s = answer 0 s :=
  if_pos hi

theorem outRead_idle {i : Word} {s : State} (hi : i.toNat < s.params.maxOut) (hb : s.busy = false) :
    outRead i s = answer ((s.outByte i.toNat).setWidth 32) s := by
  rw [outRead, if_neg (Nat.not_le.mpr hi), hb, if_neg Bool.false_ne_true]

theorem outRead_busy {i : Word} {s : State} (hi : i.toNat < s.params.maxOut) (hb : s.busy = true) :
    outRead i s = answer ((Config.freeReadByte s.draws).setWidth 32) { s with draws := s.draws + 1 } := by
  rw [outRead, if_neg (Nat.not_le.mpr hi), if_pos hb]

/-! ### The obligations -/

/-- Settles O18: the equations of `regWrite` at CMD, at IN_LEN and at every other number. -/
theorem regWriteFollowsItsRule : Obligations.RegWriteFollowsItsRule := by
  unfold Obligations.RegWriteFollowsItsRule
  refine fun s n v => ⟨fun hn hb => ⟨dropWrite s, ?_, dropWrite_dropped s⟩, ?_, ?_, regWrite_of_ne v s⟩
  · rcases hn with rfl | rfl
    · exact transact_busy_write hb (.inl ⟨v, rfl⟩)
    · exact transact_busy_write hb (.inr (.inl ⟨v, rfl⟩))
  · rintro rfl -
    exact regWrite_cmd v s
  · rintro rfl hb
    exact regWrite_inLen_idle v hb

/-- Settles O20: a write in range is one `Memory.write`, read back by `inEntry_write`. -/
theorem inWriteFollowsItsRule : Obligations.InWriteFollowsItsRule := by
  unfold Obligations.InWriteFollowsItsRule
  refine fun s i v => ⟨inWrite i v s, rfl, fun hb => ?_, inWrite_of_ge v, fun hb hi => ?_⟩
  · rw [inWrite_busy i v hb]
    exact dropWrite_dropped s
  · rw [inWrite_of_lt v hb hi]
    refine ⟨rfl, ?_, fun j hj => ?_, fun _ => rfl⟩
    · rw [inEntry_write, if_pos rfl, charBits_toNat_eq_mod]
    · rw [inEntry_write, if_neg hj.symm]

/-- Settles O17: the value returned is `readReg` of the register the number names. -/
theorem regReadReturnsTheRegister : Obligations.RegReadReturnsTheRegister := by
  unfold Obligations.RegReadReturnsTheRegister
  intro s n
  have hreserved (hn : 15 ≤ n.toNat) : readReg s (regName n) = 0 := by rw [regName_eq_reserved.mpr hn, readReg]
  refine ⟨readReg s (regName n), rfl, ?_, ?_, ?_, ?_, ?_, ?_, ?_, ?_, ?_, ?_, ?_, ?_, ?_, ?_, ?_, hreserved⟩
  all_goals
    rintro rfl
    rfl

/-- Settles O19: none of the listed numbers is that of CMD or IN_LEN, and OutWrite is the identity. -/
theorem writesToReadOnlyPlacesDoNothing : Obligations.WritesToReadOnlyPlacesDoNothing := by
  unfold Obligations.WritesToReadOnlyPlacesDoNothing
  refine ⟨fun s n v hn => regWrite_of_ne v s ?_ ?_, fun s i v => rfl⟩
  · rintro rfl
    exact absurd hn (by decide)
  · rintro rfl
    exact absurd hn (by decide)

/-- Settles O21: InRead is one answer, for every value of BUSY. -/
theorem inReadReturnsTheEntry : Obligations.InReadReturnsTheEntry := by
  unfold Obligations.InReadReturnsTheEntry
  exact fun s i => rfl

/-- Settles O22: the three equations of `outRead`; the byte read while BUSY = 1 is the free value of a new draw. -/
theorem outReadFollowsItsRule : Obligations.OutReadFollowsItsRule := by
  unfold Obligations.OutReadFollowsItsRule
  refine fun s i => ⟨fun hi => ?_, fun hi hb => ?_, fun hi hb => ⟨Config.freeReadByte s.draws, ?_⟩⟩
  · exact congrArg Host.Outcome.next (outRead_of_ge hi)
  · exact congrArg Host.Outcome.next (outRead_idle hi hb)
  · exact congrArg Host.Outcome.next (outRead_busy hi hb)

end Sys2Proof.Machine
end

section
/-! The decoder as the inverse of the encoder on well-formed instructions, and the rows of the opcode map
(30_encoding.md R110 to R112). -/

namespace Sys2Proof

/-! ### Round trips -/

/-- Two fields are those of an illegal word exactly when their word is none of the words 0 to 3. -/
theorem illegalFields_iff_four_le {opc : BitVec 8} {rsvd : BitVec 24} :
    illegalFields opc rsvd = true ↔ 4 ≤ (wordOfFields opc rsvd).toNat := by
  refine ⟨Laws.TableRow.illegal_word_ge_four opc rsvd, fun h => ?_⟩
  rw [illegalFields, Bool.or_eq_true, bne_iff_ne, decide_eq_true_eq]
  by_cases hr : rsvd = 0
  · rw [wordOfFields_toNat, hr] at h
    exact .inr (by simpa using h)
  · exact .inl hr

theorem encode_decode (v : Word) : encode (decode v) = v := by
  rw [decode_eq]
  split_ifs with h0 h1 h2 h3
  · exact BitVec.eq_of_toNat_eq h0.symm
  · exact BitVec.eq_of_toNat_eq h1.symm
  · exact BitVec.eq_of_toNat_eq h2.symm
  · exact BitVec.eq_of_toNat_eq h3.symm
  · exact wordOfFields_fields v

theorem decode_wellFormed (v : Word) : (decode v).wellFormed = true := by
  rw [decode_eq]
  split_ifs
  case neg =>
    rw [Instr.wellFormed, illegalFields_iff_four_le, wordOfFields_fields]
    omega
  all_goals rfl

theorem decode_encode {i : Instr} (h : i.wellFormed = true) : decode (encode i) = i := by
  cases i with
  | illegal opc rsvd =>
    have hge : 4 ≤ (wordOfFields opc rsvd).toNat := illegalFields_iff_four_le.mp h
    rw [encode, decode_eq, if_neg (by omega), if_neg (by omega), if_neg (by omega), if_neg (by omega),
      opcField_wordOfFields, rsvdField_wordOfFields]
  | nop | encode | decode | clear => decide

/-- A word decodes to the well-formed instructions it is the word of, and to no other (30_encoding.md R112). -/
theorem decode_eq_iff {v : Word} {i : Instr} : decode v = i ↔ i.wellFormed = true ∧ v = encode i := by
  constructor
  · rintro rfl
    exact ⟨decode_wellFormed v, (encode_decode v).symm⟩
  · rintro ⟨hwf, rfl⟩
    exact decode_encode hwf

/-! ### The rows of the opcode map -/

theorem decode_eq_nop {v : Word} : decode v = .nop ↔ v = 0 := decode_eq_iff.trans (and_iff_right rfl)

theorem decode_eq_encode {v : Word} : decode v = .encode ↔ v = 1 := decode_eq_iff.trans (and_iff_right rfl)

theorem decode_eq_decode {v : Word} : decode v = .decode ↔ v = 2 := decode_eq_iff.trans (and_iff_right rfl)

theorem eq_wordOfFields_iff {v : Word} {opc : BitVec 8} {rsvd : BitVec 24} :
    v = wordOfFields opc rsvd ↔ opc = opcField v ∧ rsvd = rsvdField v := by
  constructor
  · rintro rfl
    simp
  · rintro ⟨rfl, rfl⟩
    exact (wordOfFields_fields v).symm

theorem decode_eq_illegal {v : Word} {opc : BitVec 8} {rsvd : BitVec 24} :
    decode v = .illegal opc rsvd ↔
      opc = opcField v ∧ rsvd = rsvdField v ∧ (rsvdField v ≠ 0 ∨ 4 ≤ (opcField v).toNat) := by
  rw [decode_eq_iff, Instr.wellFormed, encode, eq_wordOfFields_iff, illegalFields, Bool.or_eq_true, bne_iff_ne,
    decide_eq_true_eq]
  constructor
  · rintro ⟨h, rfl, rfl⟩
    exact ⟨rfl, rfl, h⟩
  · rintro ⟨rfl, rfl, h⟩
    exact ⟨h, rfl, rfl⟩

/-- A word that is not ILLEGAL is one of the four legal words. -/
theorem decode_ne_illegal_iff {v : Word} :
    (∀ opc rsvd, decode v ≠ .illegal opc rsvd) ↔ v = 0 ∨ v = 1 ∨ v = 2 ∨ v = 3 := by
  rw [← decode_eq_nop, ← decode_eq_encode, ← decode_eq_decode, ← Machine.decode_eq_clear]
  cases decode v <;> simp

/-- Every row has the full mask, so a row matches its match word alone. -/
theorem rowMatches_iff {r : OpcodeRow} (hr : r ∈ opcodeRows) (v : Word) :
    rowMatches r v = true ↔ v = r.matchWord := by
  have hmask : ∀ q ∈ opcodeRows, q.mask = BitVec.allOnes 32 := by decide
  rw [rowMatches, hmask r hr, BitVec.and_allOnes, beq_iff_eq]

theorem exists_rowMatches_iff {v : Word} :
    (∃ r ∈ opcodeRows, rowMatches r v = true) ↔ v = 0 ∨ v = 1 ∨ v = 2 ∨ v = 3 := by
  rw [exists_congr fun r => and_congr_right fun hr => rowMatches_iff hr v]
  simp [opcodeRows]

/-! ### The obligation -/

/-- Settles O9: one equivalence per instruction, and the words a row matches are the words of the legal instructions. -/
theorem decodeIsTheOpcodeMap : Obligations.DecodeIsTheOpcodeMap := by
  unfold Obligations.DecodeIsTheOpcodeMap
  exact fun v => ⟨decode_eq_nop, decode_eq_encode, decode_eq_decode, Machine.decode_eq_clear,
    fun opc rsvd => decode_eq_illegal, decode_ne_illegal_iff.trans exists_rowMatches_iff.symm⟩

end Sys2Proof
end

section
/-! Stage FREQ at the end of ENCODE (41_frequency_analyzer.md R200 to R206): the character it rejects, and the table it
makes. -/

namespace Sys2Proof.Machine

/-! ### The error of FREQ is the error of ENCODE -/

theorem encodeChars_of_freq_error {maxOut : Nat} {chars : List Word} {x : Raise} (h : freq chars = .error x) :
    encodeChars maxOut chars = .error x := by
  rw [encodeChars, h]

/-- An ENCODE whose stages fail ends by their error (60_exceptions.md R405, R420). -/
theorem engineStep_encode_failed {s : State} {x : Raise} (hin : s.inLen.toNat ≤ s.params.maxIn)
    (h : encodeChars s.params.maxOut (inputChars s) = .error x) :
    Failed (errCodeWord x.error x.stage) (errIndexWord x) s (engineStep .encode s) :=
  engineStep_failed ((engineResult_encode hin).trans h)

/-! ### The first character above 255 -/

/-- The input around the entry of an index below IN_LEN (48_commands.md R356). -/
theorem inputChars_split {s : State} {i : Nat} (hi : i < s.inLen.toNat) :
    ∃ back, inputChars s = (List.range i).map s.inEntry ++ s.inEntry i :: back := by
  obtain ⟨m, hm⟩ := Nat.exists_eq_add_of_lt hi
  refine ⟨((List.range m).map fun k => i + (k + 1)).map s.inEntry, ?_⟩
  rw [inputChars, hm, Nat.add_assoc, List.range_add, List.range_succ_eq_map]
  simp

/-- FREQ names the position of the first character above 255, whatever follows it (41_frequency_analyzer.md R202,
R204). -/
theorem freq_unsupported {front : List Word} {ch : Word} (back : List Word) (hf : ∀ c ∈ front, c.toNat ≤ 255)
    (hc : 255 < ch.toNat) :
    freq (front ++ ch :: back) = .error ⟨.unsupportedSymbol, .input, front.length⟩ := by
  rw [freq, if_neg (by simp), firstUnsupported_some front ch back 0 hf hc, Nat.zero_add]

/-- ERR_INDEX names the character of an UnsupportedSymbolError (10_state.md R41, 60_exceptions.md R401). -/
theorem errIndexWord_unsupportedSymbol (st : Stage) (i : Nat) :
    errIndexWord ⟨.unsupportedSymbol, st, i⟩ = BitVec.ofNat 32 i := if_pos rfl

/-! ### The obligations -/

/-- Settles O33: the entries below `i` are the part of the input in front of its first character above 255. -/
theorem unsupportedSymbolNamesTheFirstIndex : Obligations.UnsupportedSymbolNamesTheFirstIndex := by
  unfold Obligations.UnsupportedSymbolNamesTheFirstIndex
  intro s i hin hi hbad hgood
  obtain ⟨back, hsplit⟩ := inputChars_split hi
  have hfront : ∀ c ∈ (List.range i).map s.inEntry, c.toNat ≤ 255 := by simpa using hgood
  have hfreq : freq (inputChars s) = .error ⟨.unsupportedSymbol, .input, i⟩ := by
    rw [hsplit, freq_unsupported back hfront hbad, List.length_map, List.length_range]
  have hcode : errCodeWord .unsupportedSymbol .input = 0x00000202 := by decide
  simpa only [hcode, errIndexWord_unsupportedSymbol] using
    engineStep_encode_failed hin (encodeChars_of_freq_error hfreq)

/-- Settles O42: the table is a filter of the symbols in ascending order, and an entry is a symbol that occurs, with
its count. -/
theorem frequencyTableIsAscendingAndExact : Obligations.FrequencyTableIsAscendingAndExact := by
  unfold Obligations.FrequencyTableIsAscendingAndExact
  exact fun syms => ⟨freqTable_ascending syms, mem_freqTable syms⟩

end Sys2Proof.Machine
end

section
/-! The queue of BUILD (42_tree_builder.md R223): what `popmin` answers on a queue that holds an entry. -/

namespace Sys2Proof.Machine

/-- `popmin` answers on every queue that holds an entry (42_tree_builder.md R223). -/
theorem exists_popMin_eq_some {q : List QEntry} (hq : q ≠ []) : ∃ m rest, popMin q = some (m, rest) := by
  obtain ⟨⟨m, rest⟩, h⟩ := Option.ne_none_iff_exists'.mp (mt popMin_eq_none.mp hq)
  exact ⟨m, rest, h⟩

/-- Settles O43: `popmin` answers on a queue that holds an entry, its answer and the rest are the queue rearranged, and
the entry it takes pops before every entry of the queue, by weight first and then by seq. -/
theorem popMinTakesTheFirstSmallest : Obligations.PopMinTakesTheFirstSmallest := by
  unfold Obligations.PopMinTakesTheFirstSmallest
  intro q hq
  obtain ⟨m, rest, hpop⟩ := exists_popMin_eq_some hq
  obtain ⟨hperm, hfirst⟩ := popMin_some hpop
  exact ⟨m, rest, hpop, hperm, fun e he => (popsBefore_iff m e).mp (hfirst e he)⟩

end Sys2Proof.Machine
end

section
/-! The entries of the uniform tree in another order (45_tree_reconstructor.md R291 to R293): a later entry with the
same padded code replaces an earlier one, and entries with different padded codes do not touch each other's leaves. -/

namespace Sys2Proof.Machine

@[simp] theorem insertCode_nil (t : Tree) (s : Byte) : insertCode t [] s = .leaf s := rfl

@[simp] theorem insertCode_false (t : Tree) (c : Bits) (s : Byte) :
    insertCode t (false :: c) s = .internal (insertCode (leftChild t) c s) (rightChild t) := rfl

@[simp] theorem insertCode_true (t : Tree) (c : Bits) (s : Byte) :
    insertCode t (true :: c) s = .internal (leftChild t) (insertCode (rightChild t) c s) := rfl

@[simp] theorem leftChild_internal (l r : Tree) : leftChild (.internal l r) = l := rfl

@[simp] theorem rightChild_internal (l r : Tree) : rightChild (.internal l r) = r := rfl

@[simp] theorem insertAll_cons (t : Tree) (p : Bits × Byte) (xs : List (Bits × Byte)) :
    insertAll t (p :: xs) = insertAll (insertCode t p.1 p.2) xs := rfl

/-- The later of two entries with the same code is the only one that shows (45_tree_reconstructor.md R293). -/
theorem insertCode_insertCode_same (t : Tree) (c : Bits) (s₁ s₂ : Byte) :
    insertCode (insertCode t c s₁) c s₂ = insertCode t c s₂ := by
  induction c generalizing t with
  | nil => simp
  | cons b c ih => cases b <;> simp [ih]

/-- Entries with different codes of the same length can be inserted in either order: their walks part at the first
bit in which they differ. -/
theorem insertCode_comm {c d : Bits} (hlen : c.length = d.length) (hne : c ≠ d) (t : Tree) (s x : Byte) :
    insertCode (insertCode t c s) d x = insertCode (insertCode t d x) c s := by
  induction c generalizing d t with
  | nil => exact absurd (List.eq_nil_of_length_eq_zero hlen.symm).symm hne
  | cons b c ih =>
    obtain ⟨e, d, rfl⟩ := List.exists_cons_of_length_eq_add_one hlen.symm
    by_cases hbe : b = e
    · subst hbe
      have hrest := ih (by simpa using hlen) (by simpa using hne)
      cases b <;> simp [hrest]
    · obtain rfl : e = !b := Bool.eq_not.mpr (Ne.symm hbe)
      cases b <;> simp

/-- An entry leaves no trace when a later entry has its code: it moves past the entries between them, up to the one
that replaces it. -/
theorem insertAll_insertCode_replaced {c : Bits} (xs ys : List (Bits × Byte)) (s₁ s₂ : Byte)
    (hlen : ∀ p ∈ xs, p.1.length = c.length) (t : Tree) :
    insertAll (insertCode t c s₁) (xs ++ (c, s₂) :: ys) = insertAll t (xs ++ (c, s₂) :: ys) := by
  induction xs generalizing t with
  | nil => simp [insertCode_insertCode_same]
  | cons p xs ih =>
    obtain ⟨hp, hxs⟩ := List.forall_mem_cons.mp hlen
    by_cases hpc : p.1 = c
    · subst hpc
      simp [insertCode_insertCode_same]
    · simp [insertCode_comm hp.symm (Ne.symm hpc), ih hxs]

/-- Settles O52: after the entries before it, the earlier entry of the code is one that a later entry replaces. -/
theorem laterDuplicateEntryWins : Obligations.LaterDuplicateEntryWins := by
  unfold Obligations.LaterDuplicateEntryWins
  intro before between after code s₁ s₂ _ hlen
  have hbetween : ∀ p ∈ between, p.1.length = code.length := fun p hp => hlen p (by simp [hp])
  simp only [uniformTree_eq, List.append_assoc, List.cons_append, insertAll_append _ before, insertAll_cons,
    insertAll_insertCode_replaced between after s₁ s₂ hbetween]

end Sys2Proof.Machine
end

section
/-! The packed stream as a whole number of bytes (46_bitstream_packer.md R311 to R314): its length, and the two answers
of PACK by the number of bytes that fit. -/

namespace Sys2Proof.Machine

/-- The whole stream ends at a byte boundary (46_bitstream_packer.md R312). -/
theorem streamBits_length_mod_eight (hdr pay : Bits) : (streamBits hdr pay).length % 8 = 0 := by
  rw [streamBits_length]
  exact (paddingBits_spec _).2

theorem pack_of_lt {maxOut : Nat} {hdr pay : Bits} (h : maxOut < (streamBits hdr pay).length / 8) :
    pack maxOut hdr pay = .error (raiseAt .outputOverflow .output) := by
  rcases pack_cases maxOut hdr pay with ⟨-, hpack⟩ | ⟨hfits, -⟩
  · exact hpack
  · exact absurd h (Nat.not_lt.mpr hfits)

theorem pack_of_le {maxOut : Nat} {hdr pay : Bits} (h : (streamBits hdr pay).length / 8 ≤ maxOut) :
    ∃ out, pack maxOut hdr pay = .ok (paddingBits (unpaddedLength hdr pay), out) ∧
      out.length * 8 = (streamBits hdr pay).length ∧ unpack out = streamBits hdr pay := by
  rcases pack_cases maxOut hdr pay with ⟨hover, -⟩ | ⟨-, out, hpack, hlen, hbits⟩
  · exact absurd hover (Nat.not_lt.mpr h)
  · have hwhole := Nat.div_mul_cancel (Nat.dvd_of_mod_eq_zero (streamBits_length_mod_eight hdr pay))
    exact ⟨out, hpack, by rw [hlen, hwhole], hbits⟩

/-- Settles O47: `total` is the length of `streamBits`, a multiple of 8, and PACK answers by whether its bytes fit. -/
theorem packedStreamIsByteAligned : Obligations.PackedStreamIsByteAligned := by
  unfold Obligations.PackedStreamIsByteAligned
  intro maxOut hdr pay pad total
  have htotal : (streamBits hdr pay).length = total := streamBits_length hdr pay
  rw [← htotal]
  exact ⟨(paddingBits_spec _).1, streamBits_length_mod_eight hdr pay, pack_of_lt, pack_of_le⟩

end Sys2Proof.Machine
end

section
/-! The command words at their write to CMD (48_commands.md R350 to R359), the input-length check in front of either
operation (R352), and the successful end of an operation (R360). -/

namespace Sys2Proof.Machine

/-! ### A command word issued while BUSY = 0 -/

/-- A command word issued while BUSY = 0 has its effect (48_commands.md R350). -/
theorem issue_idle (effect : State → State) {s : State} (hb : s.busy = false) :
    issue effect s = .next (effect s) := by
  rw [issue, hb, if_neg Bool.false_ne_true]

theorem exec_nop_idle {s : State} (hb : s.busy = false) : exec .nop s = .next s :=
  issue_idle (fun t => t) hb

theorem exec_encode_idle {s : State} (hb : s.busy = false) : exec .encode s = .next (accept .encode s) := issue_idle _ hb

theorem exec_decode_idle {s : State} (hb : s.busy = false) : exec .decode s = .next (accept .decode s) := issue_idle _ hb

theorem exec_clear_idle {s : State} (hb : s.busy = false) : exec .clear s = .next (clearAll s) := issue_idle _ hb

theorem exec_illegal_idle (opc : BitVec 8) (rsvd : BitVec 24) {s : State} (hb : s.busy = false) :
    exec (.illegal opc rsvd) s = .next (rejectIllegal s) := issue_idle _ hb

/-! ### Illegal words -/

/-- Every word but 0 to 3 is ILLEGAL (30_encoding.md R112). -/
theorem decode_of_four_le {v : Word} (h : 4 ≤ v.toNat) : decode v = .illegal (opcField v) (rsvdField v) := by
  have hfields : illegalFields (opcField v) (rsvdField v) = true := by
    rwa [illegalFields_iff_four_le, wordOfFields_fields]
  exact decode_eq_iff.mpr ⟨hfields, (wordOfFields_fields v).symm⟩

/-- An illegal word writes no STATUS bit but DONE and ERR (48_commands.md R359). -/
theorem statusIllegal_getLsbD_of_ne (v : Word) {j : Nat} (h1 : j ≠ 1) (h2 : j ≠ 2) :
    (statusIllegal v).getLsbD j = v.getLsbD j := by
  rw [statusIllegal_getLsbD, if_neg h1, if_neg h2]

/-- 60_exceptions.md R418. -/
theorem errCodeWord_illegalCommand : errCodeWord .illegalCommand .command = 0x0000010A := by decide

/-! ### The engine step -/

/-- Either operation begins with the input-length check (48_commands.md R352). -/
theorem engineResult_of_lt (op : Op) {s : State} (h : s.params.maxIn < s.inLen.toNat) :
    engineResult op s = .error (raiseAt .inputLength .command) := if_pos h

/-- 60_exceptions.md R417. -/
theorem errCodeWord_inputLength : errCodeWord .inputLength .command = 0x00000109 := by decide

/-- Only UnsupportedSymbolError records an index (60_exceptions.md R401). -/
theorem errIndexWord_raiseAt {e : ErrorName} (st : Stage) (he : e ≠ .unsupportedSymbol) :
    errIndexWord (raiseAt e st) = 0 := if_neg he

/-- An operation whose result is an error without an index ends with ERR_INDEX at 0 (60_exceptions.md R420). -/
theorem engineStep_failed_raiseAt {op : Op} {s : State} {e : ErrorName} {st : Stage} (he : e ≠ .unsupportedSymbol)
    (h : engineResult op s = .error (raiseAt e st)) : Failed (errCodeWord e st) 0 s (engineStep op s) := by
  have hfailed := engineStep_failed h
  rwa [errIndexWord_raiseAt st he] at hfailed

/-- The error report of a running operation is still the 0 of its acceptance: BUSY excludes ERR
(10_state.md R36, R40, R41). -/
theorem State.Inv.report_eq_zero_of_running {s : State} {op : Op} (h : s.Inv) (he : s.engine = .busy op) :
    s.errCode = 0 ∧ s.errIndex = 0 := by
  obtain ⟨-, hphase, hexcl, -⟩ := h.status
  obtain ⟨hcode, -, hindex⟩ := h.report
  have hbusy : s.busy = true := hphase.mpr (by simp [he])
  have hzero : s.errCode = 0 := hcode (hexcl hbusy).2
  refine ⟨hzero, by_contra fun hne => ?_⟩
  have hcontra : (0 : Word) = 0x202 := hzero.symm.trans (hindex hne)
  exact absurd hcontra (by decide)

/-! ### The obligations -/

/-- Settles O29: the engine step is `finish`, which keeps the error report, and a running operation's report is 0. -/
theorem successfulEngineStep : Obligations.SuccessfulEngineStep := by
  unfold Obligations.SuccessfulEngineStep
  intro op s r hok
  rw [engineStep_ok hok]
  exact ⟨finish_succeeded r s, State.Inv.report_eq_zero_of_running⟩

/-- Settles O24: NOP issues the identity, and the BUSY case is the dropped write of every command. -/
theorem nopChangesNothing : Obligations.NopChangesNothing := by
  unfold Obligations.NopChangesNothing
  exact ⟨decode_eq_nop.mpr rfl, fun s => ⟨exec_nop_idle, fun hb => ⟨_, exec_busy .nop hb, dropWrite_dropped s⟩⟩⟩

/-- Settles O25: both commands issue `accept` with their operation. -/
theorem encodeAndDecodeAreAccepted : Obligations.EncodeAndDecodeAreAccepted := by
  unfold Obligations.EncodeAndDecodeAreAccepted
  exact fun s hb => ⟨⟨_, exec_encode_idle hb, accept_accepted .encode s⟩,
    _, exec_decode_idle hb, accept_accepted .decode s⟩

/-- Settles O26: CLEAR issues `clearAll`, which writes STATUS, the report and the results only. -/
theorem clearZeroesStatusReportAndResults : Obligations.ClearZeroesStatusReportAndResults := by
  unfold Obligations.ClearZeroesStatusReportAndResults
  refine ⟨decode_eq_clear.mpr rfl, fun s hb => ⟨_, exec_busy .clear hb, dropWrite_dropped s⟩, fun s hb => ?_⟩
  exact ⟨clearAll s, exec_clear_idle hb, rfl, fun _ => rfl, fun _ => rfl⟩

/-- Settles O27: every word of 4 or more decodes to ILLEGAL, and ILLEGAL issues `rejectIllegal` whatever its fields. -/
theorem illegalWordReportsIllegalCommand : Obligations.IllegalWordReportsIllegalCommand := by
  unfold Obligations.IllegalWordReportsIllegalCommand
  refine ⟨fun v h => ⟨_, _, decode_of_four_le h⟩, fun s opc rsvd hb => ?_⟩
  refine ⟨rejectIllegal s, exec_illegal_idle opc rsvd hb, rejectIllegal_done s, rejectIllegal_err s,
    fun j => statusIllegal_getLsbD_of_ne s.status, ?_, fun _ => rfl, fun _ => rfl⟩
  rw [← errCodeWord_illegalCommand]
  rfl

/-- Settles O31: the length check is made before IN_MEM is read, and its error records no index. -/
theorem inputLengthIsCheckedFirst : Obligations.InputLengthIsCheckedFirst := by
  unfold Obligations.InputLengthIsCheckedFirst
  intro op s h
  rw [← errCodeWord_inputLength]
  exact engineStep_failed_raiseAt (by decide) (engineResult_of_lt op h)

end Sys2Proof.Machine
end

section
/-! The end of an operation by an error (60_exceptions.md R420), and the two errors of FREQ that record no index
(60_exceptions.md R409, R411). -/

namespace Sys2Proof.Machine

/-! ### The checks of FREQ that record no index -/

/-- The first check of FREQ (41_frequency_analyzer.md R201). -/
theorem freq_nil : freq [] = .error (raiseAt .emptyInput .input) := if_pos rfl

/-- The last check of FREQ, made on an input that passed the other two (41_frequency_analyzer.md R204, R208). -/
theorem freq_alphabetTooLarge {chars : List Word} (hrep : ∀ ch ∈ chars, ch.toNat ≤ 255)
    (hwide : 128 ≤ (chars.map symbolOf).dedup.length) :
    freq chars = .error (raiseAt .alphabetTooLarge .input) := by
  have hne : chars ≠ [] := by
    rintro rfl
    simp at hwide
  have hlen : 128 ≤ (freqTable (chars.map symbolOf)).length := hwide.trans_eq (freqTable_length _).symm
  simp only [freq, if_neg hne, (firstUnsupported_none chars 0).mpr hrep, if_pos hlen]

/-- An ENCODE whose FREQ raises an error without an index ends by it, ERR_INDEX at 0 (60_exceptions.md R405, R420). -/
theorem engineStep_encode_failed_of_freq {s : State} {e : ErrorName} {st : Stage} (he : e ≠ .unsupportedSymbol)
    (hin : s.inLen.toNat ≤ s.params.maxIn) (h : freq (inputChars s) = .error (raiseAt e st)) :
    Failed (errCodeWord e st) 0 s (engineStep .encode s) :=
  engineStep_failed_raiseAt he ((engineResult_encode hin).trans (encodeChars_of_freq_error h))

theorem inputChars_of_inLen_zero {s : State} (h : s.inLen = 0) : inputChars s = [] := by
  simp [inputChars, h]

/-- 60_exceptions.md R409. -/
theorem errCodeWord_emptyInput : errCodeWord .emptyInput .input = 0x00000201 := by decide

/-- 60_exceptions.md R411. -/
theorem errCodeWord_alphabetTooLarge : errCodeWord .alphabetTooLarge .input = 0x00000203 := by decide

/-! ### The obligations -/

/-- Settles O30: the engine step is `raiseError`, and ERR_CODE's two fields do not overlap. -/
theorem failedEngineStep : Obligations.FailedEngineStep := by
  unfold Obligations.FailedEngineStep
  intro op s x herr
  rw [← errCodeWord_eq]
  exact engineStep_failed herr

/-- Settles O34: no character is rejected before the alphabet is counted, and the table has an entry per distinct
symbol. -/
theorem alphabetTooLargeIsRejected : Obligations.AlphabetTooLargeIsRejected := by
  unfold Obligations.AlphabetTooLargeIsRejected
  intro s hin hrep hwide
  have hchars : ∀ ch ∈ inputChars s, ch.toNat ≤ 255 := by simpa [inputChars] using hrep
  rw [← errCodeWord_alphabetTooLarge]
  exact engineStep_encode_failed_of_freq (by decide) hin (freq_alphabetTooLarge hchars hwide)

/-- Settles O32: an IN_LEN of 0 passes the length check whatever MAX_IN is, and the empty input is FREQ's first
error. -/
theorem emptyInputIsRejected : Obligations.EmptyInputIsRejected := by
  unfold Obligations.EmptyInputIsRejected
  intro s hlen
  have hin : s.inLen.toNat ≤ s.params.maxIn := by simp [hlen]
  have hfreq : freq (inputChars s) = .error (raiseAt .emptyInput .input) := by
    rw [inputChars_of_inLen_zero hlen, freq_nil]
  rw [← errCodeWord_emptyInput]
  exact engineStep_encode_failed_of_freq (by decide) hin hfreq

end Sys2Proof.Machine
end

section
/-! The state after reset (70_reset_and_hazards.md R450, R451, R453): every register number, both memories, and the
next host action. -/

namespace Sys2Proof.Machine

/-! ### Registers -/

/-- The registers that read a constant of the build are those of the numbers 0 and 12 to 14 (10_state.md R32, R33,
R44). -/
theorem regName_mem_constants {n : BitVec 8} :
    regName n ∈ [RegName.id, .capIn, .capOut, .capChar] ↔ n = 0 ∨ n = 12 ∨ n = 13 ∨ n = 14 := by
  revert n
  decide

/-- Reset leaves 0 in every register but the constants (10_state.md R57). -/
theorem readReg_resetMachine_of_not_constant (s : State) {r : RegName}
    (hr : r ∉ [RegName.id, .capIn, .capOut, .capChar]) : readReg (resetMachine s) r = 0 := by
  cases r with
  | id | capIn | capOut | capChar => simp at hr
  | _ => rfl

/-- The reset value of every register number (10_state.md R32, R57). -/
theorem readReg_resetMachine_regName (s : State) (n : BitVec 8) :
    readReg (resetMachine s) (regName n) =
      if n = 0 then 0x48554646
      else if n = 12 then BitVec.ofNat 32 s.params.maxIn
      else if n = 13 then BitVec.ofNat 32 s.params.maxOut
      else if n = 14 then BitVec.ofNat 32 s.params.charWidth
      else 0 := by
  split_ifs with hid hin hout hchar
  · subst hid
    rfl
  · subst hin
    rfl
  · subst hout
    rfl
  · subst hchar
    rfl
  · have hn : regName n ∉ [RegName.id, .capIn, .capOut, .capChar] :=
      mt regName_mem_constants.mp (by tauto)
    exact readReg_resetMachine_of_not_constant s hn

/-! ### Memories -/

/-- Every IN_MEM entry is a free value of the draw made at reset (70_reset_and_hazards.md R450). -/
theorem resetMachine_inEntry (s : State) (i : Nat) :
    (resetMachine s).inEntry i = charBits s.params (Config.freeInEntry s.draws i) := rfl

/-- Every OUT_MEM byte is a free value of the draw made at reset (70_reset_and_hazards.md R450). -/
theorem resetMachine_outByte (s : State) (i : Nat) : (resetMachine s).outByte i = Config.freeOutByte s.draws i := rfl

/-! ### The obligations -/

/-- Settles O1: reset is `resetMachine` in every state, whatever the engine is doing. -/
theorem resetLeavesTheStatedValues : Obligations.ResetLeavesTheStatedValues := by
  unfold Obligations.ResetLeavesTheStatedValues
  exact fun s => ⟨resetMachine s, rfl, resetMachine_engine s, readReg_resetMachine_regName s,
    resetMachine_inEntry s, resetMachine_outByte s⟩

/-- Settles O2: reset leaves the engine idle, and an idle engine leaves the move to the host. -/
theorem readyAtOnceAfterReset : Obligations.ReadyAtOnceAfterReset := by
  unfold Obligations.ReadyAtOnceAfterReset
  intro s t h
  obtain rfl : resetMachine s = t := Host.Outcome.next.inj h
  exact ⟨resetMachine_status s, resetMachine_engine s, fun a rest => step_idle_cons (resetMachine_engine s) rfl⟩

end Sys2Proof.Machine
end

section
/-! The two round trips of the command word encoding (30_encoding.md R110 to R113). -/

namespace Sys2Proof

/-- Settles O10: the encoder is injective on well-formed instructions, since the decoder inverts it there. -/
theorem decodeInvertsTheEncoder : Obligations.DecodeInvertsTheEncoder := by
  unfold Obligations.DecodeInvertsTheEncoder
  exact fun i => decode_encode

/-- Settles O11: the fields kept by the decoder are the whole word. -/
theorem everyWordIsTheWordOfItsInstruction : Obligations.EveryWordIsTheWordOfItsInstruction := by
  unfold Obligations.EveryWordIsTheWordOfItsInstruction
  exact fun v => ⟨decode_wellFormed v, encode_decode v⟩

/-- Settles O8: each word is the word of the instruction named, and each ILLEGAL one has fields of an illegal word. -/
theorem writtenOutWordsDecode : Obligations.WrittenOutWordsDecode := by
  unfold Obligations.WrittenOutWordsDecode
  simp only [decode_eq_iff]
  decide

end Sys2Proof
end

section
/-! BUILD and CODES on a full tree (42_tree_builder.md R222 to R228, 43_code_table.md R245 to R248). -/

namespace Sys2Proof.Machine

/-- One round of the loop of BUILD (42_tree_builder.md R224). -/
theorem buildLoop_succ {q q₁ q₂ : List QEntry} {a b : QEntry} (fuel seq : Nat) (ha : popMin q = some (a, q₁))
    (hb : popMin q₁ = some (b, q₂)) :
    buildLoop (fuel + 1) q seq = buildLoop fuel (q₂ ++ [combine a b seq]) (seq + 1) := by
  rw [buildLoop, ha]
  simp only [hb]

/-- No leaf of the tree of BUILD is deeper than one less than the number of symbols (42_tree_builder.md R228). -/
theorem visit_build_length_lt {freq : List (Byte × Nat)} (h : freq ≠ []) :
    ∀ p ∈ visit (build freq) [], p.2.length + 1 ≤ freq.length := by
  obtain ⟨hfull, hperm, -⟩ := build_spec freq h
  have hleaves : (visit (build freq) []).length = freq.length := by simpa using hperm.length_eq
  exact fun p hp => (visit_length_lt hfull p hp).trans_eq hleaves

/-- Settles O44: the loop's specification, carried by the queue's leaves and weights, gives the end and the tree. -/
theorem buildGivesAFullTree : Obligations.BuildGivesAFullTree := by
  unfold Obligations.BuildGivesAFullTree
  refine ⟨fun freq k => ?_, fun fuel seq q q₁ q₂ a b => buildLoop_succ fuel seq, fun s c => rfl, fun freq h => ?_⟩
  · simpa using leafQueue_getElem? freq 0 k
  · obtain ⟨hfull, hperm, hend⟩ := build_spec freq h
    exact ⟨hend, hfull, hperm, visit_build_length_lt h⟩

/-- Settles O45: the paths of the leaves part at the node where they turn apart, and the first leaf is the leftmost. -/
theorem codesArePrefixFree : Obligations.CodesArePrefixFree := by
  unfold Obligations.CodesArePrefixFree
  intro t ht
  obtain ⟨hfree, hpos, ⟨s, k, rest, hfirst⟩, -⟩ := codeTable_spec ht
  exact ⟨hfree, fun p hp => List.length_pos_iff.mp (hpos p hp), s, zeros k, rest, hfirst, by rw [zeros_length]⟩

/-- Settles O46: each Internal node halves the code space between its children. -/
theorem codesFillTheCodeSpace : Obligations.CodesFillTheCodeSpace := by
  unfold Obligations.CodesFillTheCodeSpace
  exact fun l r hl hr => visit_kraft (t := .internal l r) ⟨hl, hr⟩ _ fun p => codeDepth_ge

end Sys2Proof.Machine
end

section
/-! RECON (45_tree_reconstructor.md R290 to R301): DESCEND and COLLAPSE on every tree, and the tree recovered from the
padded codes of its code table. -/

namespace Sys2Proof.Machine

/-! ### DESCEND -/

@[simp] theorem descend_internal (l r : Tree) : descend (.internal l r) = descend l := rfl

theorem leftChild_iterate_succ (l r : Tree) (k : Nat) : leftChild^[k + 1] (.internal l r) = leftChild^[k] l :=
  Function.iterate_succ_apply leftChild k (.internal l r)

/-- A node without children stays where it is, or is left for nothing. -/
theorem leftChild_iterate_absent (k : Nat) : leftChild^[k] .absent = .absent :=
  Function.iterate_fixed rfl k

theorem leftChild_iterate_leaf_succ (s : Byte) (k : Nat) : leftChild^[k + 1] (.leaf s) = .absent :=
  (Function.iterate_succ_apply leftChild k (.leaf s)).trans (leftChild_iterate_absent k)

/-- DESCEND finds the leaf at the end of the left chain (45_tree_reconstructor.md R296). -/
theorem descend_eq_ok_iff {t : Tree} {s : Byte} : descend t = .ok s ↔ ∃ k, leftChild^[k] t = .leaf s := by
  induction t with
  | absent => simp [descend, leftChild_iterate_absent]
  | leaf s' =>
    refine ⟨fun h => ⟨0, by simpa [descend] using h⟩, ?_⟩
    rintro ⟨_ | k, h⟩
    · simpa [descend] using h
    · simp [leftChild_iterate_leaf_succ] at h
  | internal l r ihl _ =>
    rw [descend_internal, ihl]
    refine ⟨fun ⟨k, h⟩ => ⟨k + 1, by rw [leftChild_iterate_succ, h]⟩, ?_⟩
    rintro ⟨_ | k, h⟩
    · simp at h
    · exact ⟨k, by rw [← h, leftChild_iterate_succ]⟩

/-- DESCEND fails exactly at an Internal node that has no left child (45_tree_reconstructor.md R296). -/
theorem descend_eq_error_iff {t : Tree} (ht : t ≠ .absent) :
    descend t = .error (raiseAt .invalidPath .tree) ↔ ∃ k r, leftChild^[k] t = .internal .absent r := by
  induction t with
  | absent => exact absurd rfl ht
  | leaf s =>
    simp only [descend, reduceCtorEq, false_iff]
    rintro ⟨_ | k, r, h⟩
    · simp at h
    · simp [leftChild_iterate_leaf_succ] at h
  | internal l r ihl _ =>
    by_cases hl : l = .absent
    · subst hl
      exact iff_of_true rfl ⟨0, r, rfl⟩
    · rw [descend_internal, ihl hl]
      refine ⟨fun ⟨k, r', h⟩ => ⟨k + 1, r', by rw [leftChild_iterate_succ, h]⟩, ?_⟩
      rintro ⟨_ | k, r', h⟩
      · simp [hl] at h
      · exact ⟨k, r', by rw [← h, leftChild_iterate_succ]⟩

/-! ### COLLAPSE -/

/-- A node with a left child only is replaced by the leaf DESCEND finds (45_tree_reconstructor.md R295). -/
theorem collapse_left_only {l : Tree} (hl : l ≠ .absent) :
    collapse (.internal l .absent) false = (descend l).map .leaf := by
  rw [collapse, if_pos ⟨rfl, hl, rfl⟩]
  cases descend l <;> rfl

/-- A node that is not left-only, or is the root, is kept when its children collapse (45_tree_reconstructor.md R294,
R297, R299). -/
theorem collapse_kept {l r l' r' : Tree} {isRoot : Bool} (hkeep : ¬(isRoot = false ∧ l ≠ .absent ∧ r = .absent))
    (hl : collapse l false = .ok l') (hr : collapse r false = .ok r') :
    collapse (.internal l r) isRoot = .ok (.internal l' r') := by
  rw [collapse, if_neg hkeep, hl, hr]

/-- The children of a kept node are collapsed left first, and the first error met is the answer. -/
theorem collapse_kept_error {l r : Tree} {isRoot : Bool} {x : Raise}
    (hkeep : ¬(isRoot = false ∧ l ≠ .absent ∧ r = .absent))
    (h : collapse l false = .error x ∨ (∃ l', collapse l false = .ok l') ∧ collapse r false = .error x) :
    collapse (.internal l r) isRoot = .error x := by
  rw [collapse, if_neg hkeep]
  rcases h with hl | ⟨⟨l', hl⟩, hr⟩
  · rw [hl]
  · rw [hl, hr]

/-- The root is never replaced (45_tree_reconstructor.md R299). -/
theorem collapse_root {l r t : Tree} (h : collapse (.internal l r) true = .ok t) : ∃ l' r', t = .internal l' r' := by
  rw [collapse, if_neg (by simp)] at h
  split at h
  · cases h
  · split at h
    · cases h
    · cases h
      exact ⟨_, _, rfl⟩

/-- An entry with a code keeps an Internal root Internal. -/
theorem insertAll_internal {entries : List (Bits × Byte)} (h : ∀ p ∈ entries, p.1 ≠ []) (l r : Tree) :
    ∃ l' r', insertAll (.internal l r) entries = .internal l' r' := by
  induction entries generalizing l r with
  | nil => exact ⟨l, r, rfl⟩
  | cons p entries ih =>
    obtain ⟨hp, hrest⟩ := List.forall_mem_cons.mp h
    obtain ⟨b, code, hcode⟩ := List.exists_cons_of_ne_nil hp
    rw [insertAll_cons, hcode]
    cases b
    · exact ih hrest _ _
    · exact ih hrest _ _

theorem reconstruct_internal {entries : List (Bits × Byte)} {t : Tree} (hcodes : ∀ p ∈ entries, p.1 ≠ [])
    (h : reconstruct entries = .ok t) : ∃ l r, t = .internal l r := by
  obtain ⟨l, r, hroot⟩ := insertAll_internal hcodes .absent .absent
  rw [reconstruct, uniformTree_eq, hroot] at h
  exact collapse_root h

/-! ### The tree of a code table -/

theorem reconstruct_codeTable_internal {l r : Tree} (hl : FullTree l) (hr : FullTree r) :
    reconstruct (paddedEntries (codeTable (.internal l r)) (codeDepth (codeTable (.internal l r)))) =
      .ok (.internal l r) := by
  have hfull : FullTree (.internal l r) := ⟨hl, hr⟩
  have hdepth : ∀ p ∈ visit (.internal l r) [], p.2.length ≤ codeDepth (codeTable (.internal l r)) :=
    fun p hp => codeDepth_ge hp
  obtain ⟨-, -, -, hpos, -⟩ := codeTable_spec hfull
  obtain ⟨d, hd⟩ := Nat.exists_eq_add_of_le' hpos
  have hchild : ∀ (b : Bool) (t : Tree), (∀ q ∈ visit t [], (q.1, b :: q.2) ∈ visit (.internal l r) []) →
      ∀ q ∈ visit t [], q.2.length ≤ d := fun b t hmem q hq => by simpa [hd] using hdepth _ (hmem q hq)
  have hleft : ∀ q ∈ visit l [], q.2.length ≤ d := hchild false l fun q hq => by
    rw [visit_internal]
    exact List.mem_append_left _ (List.mem_map_of_mem hq)
  have hright : ∀ q ∈ visit r [], q.2.length ≤ d := hchild true r fun q hq => by
    rw [visit_internal]
    exact List.mem_append_right _ (List.mem_map_of_mem hq)
  rw [hd] at hdepth ⊢
  rw [reconstruct, uniformTree_eq, codeTable_internal, insertAll_root l r hfull d,
    insertAll_paddedEntries hfull _ hdepth]
  exact collapse_both true (uniformOf_ne_absent hr d) (collapse_uniformOf hl d hleft) (collapse_uniformOf hr d hright)

theorem reconstruct_codeTable_leaf (s : Byte) :
    reconstruct (paddedEntries (codeTable (.leaf s)) 1) = .ok (.internal (.leaf s) .absent) := rfl

/-- Settles O54: the padded codes build the tree with its leaves moved down, and the collapse takes them back up. -/
theorem reconstructionRecoversTheTree : Obligations.ReconstructionRecoversTheTree := by
  unfold Obligations.ReconstructionRecoversTheTree
  exact ⟨fun l r => reconstruct_codeTable_internal, reconstruct_codeTable_leaf⟩

/-- 60_exceptions.md R415, stage TREE. -/
theorem errCodeWord_invalidPath_tree : errCodeWord .invalidPath .tree = 0x00000407 := by decide

/-- A DECODE whose stages fail with an error without an index ends by it, ERR_INDEX at 0 (60_exceptions.md R405,
R420). -/
theorem engineStep_decode_failed_raiseAt {s : State} {e : ErrorName} {st : Stage} (he : e ≠ .unsupportedSymbol)
    (hin : s.inLen.toNat ≤ s.params.maxIn)
    (h : decodeBytes s.params.maxOut (inputBytes s) = .error (raiseAt e st)) :
    Failed (errCodeWord e st) 0 s (engineStep .decode s) :=
  engineStep_failed_raiseAt he ((engineResult_decode hin).trans h)

/-- Settles O53: the branches of DESCEND and COLLAPSE, and RECON's error is the error of DECODE. -/
theorem collapseFollowsItsRules : Obligations.CollapseFollowsItsRules := by
  unfold Obligations.CollapseFollowsItsRules
  refine ⟨fun t s => descend_eq_ok_iff, fun t => descend_eq_error_iff, fun l => collapse_left_only,
    fun r r' isRoot hr hr' => collapse_kept (by simp) rfl hr',
    fun l r l' r' isRoot hl hr hl' hr' => collapse_both isRoot hr hl' hr',
    fun l r isRoot x hr => collapse_kept_error (by simp [hr]),
    fun l l' hl' => collapse_kept (by simp) hl' rfl,
    fun entries t => reconstruct_internal, fun s h hin hparse hrecon => ?_⟩
  rw [← errCodeWord_invalidPath_tree]
  exact engineStep_decode_failed_raiseAt (by decide) hin (decodeBytes_tree_error hparse hrecon)

end Sys2Proof.Machine
end

section
/-! The invariant of a run (10_state.md R35 to R49): it holds at reset, and every effect of a step keeps each of its
parts. -/

namespace Sys2Proof.Machine

/-! ### STATUS and the phase -/

/-- Writing one of the four flags keeps bits 31:4 zero (10_state.md R35). -/
theorem withBit_lt_16 {v : Word} {i : Nat} {b : Bool} (hi : i < 4) (hv : v.toNat < 16) : (withBit v i b).toNat < 16 :=
  (toNat_lt_16_iff _).mpr fun j hj => by
    rw [withBit_getLsbD v i j b (by omega), if_neg (by omega)]
    exact (toNat_lt_16_iff v).mp hv j hj

/-- Each end and each acceptance writes BUSY, DONE and ERR. -/
theorem withBits_lt_16 {v : Word} {busy done err : Bool} (hv : v.toNat < 16) :
    (withBit (withBit (withBit v 0 busy) 1 done) 2 err).toNat < 16 :=
  withBit_lt_16 (by decide) (withBit_lt_16 (by decide) (withBit_lt_16 (by decide) hv))

/-- With no operation running, STATUS and the phase agree as soon as BUSY is 0 and ERR comes with DONE. -/
theorem statusOk_of_idle {s : State} (hlt : s.status.toNat < 16) (hb : s.busy = false) (he : s.engine = .idle)
    (h : s.err = true → s.done = true) : StatusOk s :=
  ⟨hlt, by simp [hb, he], by simp [hb], h⟩

theorem HostEffect.statusOk {s t : State} {a : HostAction} (h : HostEffect s a t) (hs : StatusOk s) :
    StatusOk t := by
  obtain ⟨hlt, hphase, hexcl, herr⟩ := hs
  cases h with
  | unchanged | inLen | inMem | answered | drawn | polled => exact ⟨hlt, hphase, hexcl, herr⟩
  | dropped => exact ⟨withBit_lt_16 (by decide) hlt, by simpa using hphase, by simpa using hexcl, by simpa using herr⟩
  | accepted op => exact ⟨withBits_lt_16 hlt, by simp, by simp, by simp⟩
  | cleared _ _ hb => exact statusOk_of_idle (by simp) (by simp) (by simpa [hb] using hphase) (by simp)
  | illegal _ _ hb =>
    exact statusOk_of_idle (withBit_lt_16 (by decide) (withBit_lt_16 (by decide) hlt)) (by simpa using hb)
      (by simpa [hb] using hphase) (by simp)
  | reset => exact statusOk_of_idle (by simp) (by simp) rfl (by simp)

theorem engineStep_statusOk (op : Op) {s : State} (hs : StatusOk s) : StatusOk (engineStep op s) := by
  obtain ⟨hlt, -⟩ := hs
  rcases engineStep_cases op s with ⟨r, -, h⟩ | ⟨x, -, h⟩
  · rw [h]
    exact statusOk_of_idle (withBits_lt_16 hlt) (by simp) rfl (by simp)
  · rw [h]
    exact statusOk_of_idle (withBits_lt_16 hlt) (by simp) rfl (by simp)

/-! ### The error report -/

/-- An empty report is legal whatever STATUS is (10_state.md R40, R41). -/
theorem reportOk_of_zero {s : State} (hc : s.errCode = 0) (hi : s.errIndex = 0) : ReportOk s :=
  ⟨fun _ => hc, by simp [hc, legalErrCodes], fun h => absurd hi h⟩

theorem HostEffect.reportOk {s t : State} {a : HostAction} (h : HostEffect s a t) (hs : ReportOk s) :
    ReportOk t := by
  cases h with
  | unchanged | inLen | inMem | answered | drawn | polled => exact hs
  | dropped =>
    obtain ⟨hcode, hlegal, hindex⟩ := hs
    exact ⟨by simpa using hcode, hlegal, hindex⟩
  | accepted | cleared | reset => exact reportOk_of_zero rfl rfl
  | illegal => exact ⟨by simp, by rw [rejectIllegal_errCode]; decide, fun h => absurd rfl h⟩

/-- Every error of the engine has a listed value of ERR_CODE (60_exceptions.md R401). -/
theorem errCodeWord_mem_legalErrCodes : ∀ p ∈ engineErrors, errCodeWord p.1 p.2 ∈ legalErrCodes := by decide

/-- UnsupportedSymbolError is raised at one stage only (60_exceptions.md R410). -/
theorem errCodeWord_of_unsupportedSymbol :
    ∀ p ∈ engineErrors, p.1 = .unsupportedSymbol → errCodeWord p.1 p.2 = 0x202 := by decide

theorem error_of_errIndexWord_ne_zero {x : Raise} (h : errIndexWord x ≠ 0) : x.error = .unsupportedSymbol :=
  by_contra fun hne => h (if_neg hne)

theorem engineStep_reportOk {op : Op} {s : State} (hs : s.Inv) (he : s.engine = .busy op) :
    ReportOk (engineStep op s) := by
  rcases engineStep_cases op s with ⟨r, -, h⟩ | ⟨x, hx, h⟩
  · obtain ⟨hcode, hindex⟩ := hs.report_eq_zero_of_running he
    rw [h]
    exact reportOk_of_zero hcode hindex
  · have hmem := engineResult_error hx
    rw [h]
    refine ⟨by simp, ?_, fun hne => ?_⟩
    · rw [raiseError_errCode]
      exact errCodeWord_mem_legalErrCodes (x.error, x.stage) hmem
    · rw [raiseError_errIndex] at hne
      rw [raiseError_errCode]
      exact errCodeWord_of_unsupportedSymbol (x.error, x.stage) hmem (error_of_errIndexWord_ne_zero hne)

/-! ### The result registers -/

theorem HostEffect.resultsOk {s t : State} {a : HostAction} (h : HostEffect s a t) (hs : ResultsOk s) :
    ResultsOk t := by
  cases h with
  | unchanged | inLen | inMem | answered | drawn | polled => exact hs
  | dropped => exact fun hns => hs (by simpa using hns)
  | accepted | cleared | illegal | reset => exact fun _ => ⟨rfl, rfl, rfl, rfl, rfl, rfl⟩

theorem engineStep_resultsOk (op : Op) (s : State) : ResultsOk (engineStep op s) := by
  rcases engineStep_cases op s with ⟨r, -, h⟩ | ⟨x, -, h⟩
  · rw [h]
    exact fun hne => absurd ⟨finish_done s r, finish_err s r⟩ hne
  · rw [h]
    exact fun _ => ⟨rfl, rfl, rfl, rfl, rfl, rfl⟩

/-! ### The memories -/

theorem charBits_lt (p : Config.Params) (v : Word) : (charBits p v).toNat < 2 ^ p.charWidth := by
  rw [charBits_toNat_eq_mod]
  exact Nat.mod_lt _ (Nat.two_pow_pos _)

theorem HostEffect.memoriesOk {s t : State} {a : HostAction} (h : HostEffect s a t) (hs : MemoriesOk s) :
    MemoriesOk t := by
  obtain ⟨hin, hout, hwidth⟩ := hs
  cases h with
  | inMem _ i v _ hi =>
    refine ⟨Memory.wf_write _ _ _ hi hin, hout, fun j => ?_⟩
    rw [inEntry_write]
    split_ifs
    · exact charBits_lt _ _
    · exact hwidth j
  | reset => exact ⟨Memory.wf_nil _, Memory.wf_nil _, fun i => charBits_lt _ _⟩
  | _ => exact ⟨hin, hout, hwidth⟩

theorem engineStep_memoriesOk (op : Op) {s : State} (hs : MemoriesOk s) : MemoriesOk (engineStep op s) := by
  obtain ⟨hin, hout, hwidth⟩ := hs
  rcases engineStep_cases op s with ⟨r, hr, h⟩ | ⟨x, -, h⟩
  · obtain ⟨-, -, -, -, hlen, -⟩ := engineResult_ok hr
    rw [h]
    exact ⟨hin, Memory.wf_writeFrom _ _ _ (by rwa [Nat.zero_add]) hout, hwidth⟩
  · rw [h]
    exact ⟨hin, Memory.wf_nil _, hwidth⟩

/-! ### The draws -/

theorem HostEffect.drawsOk {s t : State} {a : HostAction} (h : HostEffect s a t) (hs : DrawsOk s) : DrawsOk t := by
  obtain ⟨hin, hout⟩ := hs
  cases h with
  | accepted | drawn => exact ⟨Nat.lt_succ_of_lt hin, Nat.lt_succ_of_lt hout⟩
  | reset => exact ⟨Nat.lt_succ_self _, Nat.lt_succ_self _⟩
  | _ => exact ⟨hin, hout⟩

theorem engineStep_drawsOk (op : Op) {s : State} (hs : DrawsOk s) : DrawsOk (engineStep op s) := by
  obtain ⟨hin, hout⟩ := hs
  rcases engineStep_cases op s with ⟨r, -, h⟩ | ⟨x, -, h⟩
  · rw [h]
    exact ⟨hin, hout⟩
  · rw [h]
    exact ⟨Nat.lt_succ_of_lt hin, Nat.lt_succ_self _⟩

/-! ### The invariant -/

/-- What the schedule sets before a host action is none of the invariant's fields. -/
theorem State.Inv.host {s : State} (h : s.Inv) (p : List HostAction) (w : Nat) :
    State.Inv { s with pending := p, engineWait := w } :=
  ⟨h.params, h.status, h.report, h.results, h.memories, h.draws⟩

theorem HostEffect.inv {s t : State} {a : HostAction} (h : HostEffect s a t) (hs : s.Inv) : t.Inv where
  params := by rw [h.params_eq]; exact hs.params
  status := h.statusOk hs.status
  report := h.reportOk hs.report
  results := h.resultsOk hs.results
  memories := h.memoriesOk hs.memories
  draws := h.drawsOk hs.draws

theorem engineStep_params (op : Op) (s : State) : (engineStep op s).params = s.params := by
  obtain ⟨-, -, -, -, -, -, -, hparams, -⟩ := engineStep_spec op s
  exact hparams

theorem engineStep_inv {op : Op} {s : State} (hs : s.Inv) (he : s.engine = .busy op) : (engineStep op s).Inv where
  params := by rw [engineStep_params]; exact hs.params
  status := engineStep_statusOk op hs.status
  report := engineStep_reportOk hs he
  results := engineStep_resultsOk op s
  memories := engineStep_memoriesOk op hs.memories
  draws := engineStep_drawsOk op hs.draws

theorem StepEffect.inv {s t : State} (h : StepEffect s t) (hs : s.Inv) : t.Inv := by
  cases h with
  | rest => exact hs
  | engine op he => exact engineStep_inv hs he
  | host a more w _ _ _ hf => exact hf.inv (hs.host more w)

/-- Settles O5: each part of the invariant is kept by each effect of a host action and by the engine step. -/
theorem stepKeepsInv : Obligations.StepKeepsInv := by
  unfold Obligations.StepKeepsInv
  exact fun s t hs h => (step_cases h).inv hs

/-! ### The widths of the results -/

/-- Cleared results have every width, where STATUS reports no success. -/
theorem resultWidthsOk_of_zero {s : State} (hz : ResultsZero s) (hns : ¬(s.done = true ∧ s.err = false)) :
    ResultWidthsOk s := by
  obtain ⟨hlen, hpad, hcount, hdepth, -, -⟩ := hz
  exact ⟨by simp [hpad], by simp [hcount], by simp [hdepth], by simp [hlen], fun h => absurd h hns⟩

theorem HostEffect.resultWidthsOk {s t : State} {a : HostAction} (h : HostEffect s a t) (hs : ResultWidthsOk s) :
    ResultWidthsOk t := by
  cases h with
  | unchanged | inLen | inMem | answered | drawn | polled => exact hs
  | dropped => simpa [ResultWidthsOk] using hs
  | accepted | cleared | illegal | reset =>
    exact resultWidthsOk_of_zero ⟨rfl, rfl, rfl, rfl, rfl, rfl⟩ (by simp)

/-- The longest header a parsed or serialized table can have fits a register (00_scope.md R12). -/
theorem hdrBits_lt {depth count : Nat} (hd : depth < 128) (hc : count < 128) :
    10 + depth + count * (depth + 8) < 2 ^ 32 := by
  have hmul : count * (depth + 8) ≤ 127 * 135 := Nat.mul_le_mul (by omega) (by omega)
  omega

theorem finish_resultWidthsOk {op : Op} {s : State} {r : Success} (hp : s.params.Legal)
    (hr : engineResult op s = .ok r) : ResultWidthsOk (finish r s) := by
  obtain ⟨-, hpad, hcount, hdepth, hout, hhdr⟩ := engineResult_ok hr
  obtain ⟨-, ⟨-, hmaxOut⟩, -⟩ := hp
  have hfits := hdrBits_lt hdepth hcount
  have hword : ∀ n, n < 2 ^ 32 → (BitVec.ofNat 32 n).toNat = n := fun n hn => by
    rw [BitVec.toNat_ofNat, Nat.mod_eq_of_lt hn]
  rw [← hhdr] at hfits
  simp only [ResultWidthsOk, finish_resPad, finish_resCount, finish_resDepth, finish_outLen, finish_resHdrBits,
    finish_params]
  rw [hword r.pad (by omega), hword r.count (by omega), hword r.depth (by omega), hword r.out.length (by omega),
    hword r.hdrBits hfits]
  exact ⟨hpad, hcount, hdepth, hout, fun _ => hhdr⟩

theorem engineStep_resultWidthsOk (op : Op) {s : State} (hp : s.params.Legal) :
    ResultWidthsOk (engineStep op s) := by
  rcases engineStep_cases op s with ⟨r, hr, h⟩ | ⟨x, -, h⟩
  · rw [h]
    exact finish_resultWidthsOk hp hr
  · rw [h]
    exact resultWidthsOk_of_zero ⟨rfl, rfl, rfl, rfl, rfl, rfl⟩ (by simp)

/-- Settles O6: a success writes values within the bounds of its stages; everything else keeps the results or clears
them. -/
theorem stepKeepsResultWidths : Obligations.StepKeepsResultWidths := by
  unfold Obligations.StepKeepsResultWidths
  intro s t hs hw h
  cases step_cases h with
  | rest => exact hw
  | engine op => exact engineStep_resultWidthsOk op hs.params
  | host a more w _ _ _ hf => exact hf.resultWidthsOk hw

/-! ### At reset -/

/-- Settles O4: every register of the state after reset is 0 and its memories list nothing. -/
theorem invHoldsAtReset : Obligations.InvHoldsAtReset := by
  unfold Obligations.InvHoldsAtReset
  have hzero : ResultsZero State.reset := ⟨rfl, rfl, rfl, rfl, rfl, rfl⟩
  refine ⟨⟨by decide, statusOk_of_idle (by decide) rfl rfl (by decide), reportOk_of_zero rfl rfl, fun _ => hzero, ?_,
    by decide, by decide⟩, resultWidthsOk_of_zero hzero (by decide)⟩
  exact ⟨Memory.wf_nil _, Memory.wf_nil _, fun i => charBits_lt _ _⟩

/-- The state after reset and any reset machine of the same build read the same (10_state.md R57). -/
theorem readReg_reset (r : RegName) : readReg State.reset r = readReg (resetMachine State.reset) r := by
  cases r <;> rfl

/-- Settles O3: the registers at reset are those that the reset transition leaves, with the default parameters. -/
theorem defaultBuildResetRegisters : Obligations.DefaultBuildResetRegisters := by
  unfold Obligations.DefaultBuildResetRegisters
  exact ⟨rfl, fun n => (readReg_reset _).trans (readReg_resetMachine_regName State.reset n)⟩

/-! ### Reads while an operation runs -/

/-- The words below 16 with BUSY set and DONE and ERR clear. -/
theorem busy_status_cases :
    ∀ n < 16, (BitVec.ofNat 32 n).getLsbD 0 = true → (BitVec.ofNat 32 n).getLsbD 1 = false →
      (BitVec.ofNat 32 n).getLsbD 2 = false → BitVec.ofNat 32 n = 0x1 ∨ BitVec.ofNat 32 n = 0x9 := by decide

theorem StatusOk.status_of_busy {s : State} (h : StatusOk s) (hb : s.busy = true) :
    s.status = 0x1 ∨ s.status = 0x9 := by
  obtain ⟨hlt, -, hexcl, -⟩ := h
  obtain ⟨hd, he⟩ := hexcl hb
  have hword : BitVec.ofNat 32 s.status.toNat = s.status := by simp
  have hcases := busy_status_cases s.status.toNat hlt
  rw [hword] at hcases
  exact hcases hb hd he

/-- The numbers of the error report and of the result registers (10_state.md R32). -/
theorem regName_report {n : BitVec 8} (h : n.toNat ∈ [3, 4, 6, 7, 8, 9, 10, 11]) :
    regName n ∈ [RegName.errCode, .errIndex, .outLen, .resPad, .resCount, .resDepth, .resHdrBits, .resPayloadBits] := by
  revert n
  decide

theorem StatusOk.running_of_busy {s : State} (h : StatusOk s) (hb : s.busy = true) : ∃ op, s.engine = .busy op := by
  obtain ⟨-, hphase, -⟩ := h
  cases he : s.engine with
  | idle => exact absurd he (hphase.mp hb)
  | busy op => exact ⟨op, rfl⟩

/-- Settles O23: BUSY excludes DONE and ERR, and without DONE the report and the results are 0. -/
theorem readsWhileBusy : Obligations.ReadsWhileBusy := by
  unfold Obligations.ReadsWhileBusy
  intro s hs hb
  refine ⟨hs.status.status_of_busy hb, fun n hn => ?_⟩
  obtain ⟨op, he⟩ := hs.status.running_of_busy hb
  obtain ⟨hcode, hindex⟩ := hs.report_eq_zero_of_running he
  obtain ⟨-, -, hexcl, -⟩ := hs.status
  obtain ⟨hlen, hpad, hcount, hdepth, hhdr, hpay⟩ := hs.results (by simp [(hexcl hb).1])
  have hname := regName_report hn
  generalize regName n = r at hname
  simp only [List.mem_cons, List.not_mem_nil, or_false] at hname
  rcases hname with rfl | rfl | rfl | rfl | rfl | rfl | rfl | rfl
  · exact hcode
  · exact hindex
  · exact hlen
  · exact hpad
  · exact hcount
  · exact hdepth
  · exact hhdr
  · exact hpay

end Sys2Proof.Machine
end

section
/-! The schedule (20_memory.md R98, 70_reset_and_hazards.md R462): which move comes next, that every run goes on, and
that a running operation ends. -/

namespace Sys2Proof.Machine

/-! ### The next move -/

/-- An idle machine whose host writes a word to CMD issues it (48_commands.md R350). -/
theorem step_idle_cmd {s : State} {v : Word} {rest : List HostAction} (he : s.engine = .idle)
    (hp : s.pending = .tx (.regWrite 1 v) :: rest) : step s = exec (decode v) { s with pending := rest } :=
  (step_idle_cons he hp).trans (regWrite_cmd v _)

theorem step_busy_cmd {s : State} {op : Op} {v : Word} {rest : List HostAction} {w : Nat} (he : s.engine = .busy op)
    (hp : s.pending = .tx (.regWrite 1 v) :: rest) (hw : s.engineWait = w + 1) :
    step s = exec (decode v) { s with pending := rest, engineWait := w } :=
  (step_busy_cons he hp hw).trans (regWrite_cmd v _)

/-- Settles O13: the write to CMD is the move in both phases, and it issues the word. -/
theorem stepIssuesTheWrittenWord : Obligations.StepIssuesTheWrittenWord := by
  unfold Obligations.StepIssuesTheWrittenWord
  exact fun s v rest hp => ⟨fun he => step_idle_cmd he hp, fun op w he hw => step_busy_cmd he hp hw⟩

/-- Issuing a placed word leaves no trace of its placing (log 1). -/
theorem step_withCommand (v : Word) (s : State) : step (withCommand v s) = exec (decode v) s := by
  cases he : s.engine with
  | idle =>
    have hw : (withCommand v s).engineWait = s.engineWait := by simp only [withCommand, he]
    rw [step_idle_cmd (s := withCommand v s) he rfl]
    change exec (decode v) { s with engineWait := (withCommand v s).engineWait } = exec (decode v) s
    rw [hw]
  | busy op =>
    have hw : (withCommand v s).engineWait = s.engineWait + 1 := by simp only [withCommand, he]
    exact step_busy_cmd (s := withCommand v s) he rfl hw

theorem eq_decode_of_decodeTableWord {nbits w : Nat} {i : Instr} (h : decodeTableWord nbits w = some i) :
    i = decode (BitVec.ofNat 32 (w % 2 ^ nbits)) := by
  unfold decodeTableWord at h
  split at h
  · exact (Option.some.inj h).symm
  · cases h

/-- Settles O12: the numbered word is placed as the word it is cut to, and the next step issues that one. -/
theorem stepRunsTheCommandWord : Obligations.StepRunsTheCommandWord := by
  unfold Obligations.StepRunsTheCommandWord
  intro s nbits w i h
  rw [eq_decode_of_decodeTableWord h]
  exact step_withCommand _ s

/-- Settles O14: one equation per branch of the schedule, and reset keeps the host's fields. -/
theorem engineStepFallsBetweenHostActions : Obligations.EngineStepFallsBetweenHostActions := by
  unfold Obligations.EngineStepFallsBetweenHostActions
  exact fun s => ⟨fun op => step_engine, fun op a rest w => step_busy_cons, fun a rest => step_idle_cons, step_idle_nil,
    resetMachine s, rfl, rfl, rfl⟩

/-! ### Runs -/

theorem exists_run_next (k : Nat) (s : State) : ∃ t : State, core.run k s = .next t := by
  induction k generalizing s with
  | zero => exact ⟨s, run_zero s⟩
  | succ k ih =>
    obtain ⟨t, ht, -⟩ := step_effect s
    rw [run_succ k ht]
    exact ih t

/-- Settles O7: every effect of a step is a next state, so a run of any length has one. -/
theorem everyRunIsSafe : Obligations.EveryRunIsSafe := by
  unfold Obligations.EveryRunIsSafe
  intro s
  obtain ⟨t, ht, -⟩ := step_effect s
  exact ⟨⟨t, ht⟩, fun k => exists_run_next k s⟩

/-! ### A running operation and the host -/

/-- Everything a host action other than reset leaves of a machine whose operation runs (20_memory.md R99). -/
theorem HostEffect.keeps_running {s t : State} {a : HostAction} (h : HostEffect s a t) (hb : s.busy = true)
    (ha : a ≠ .reset) :
    t.busy = true ∧ t.engine = s.engine ∧ t.engineWait = s.engineWait ∧ t.params = s.params ∧ t.inLen = s.inLen ∧
      (∀ i, t.inEntry i = s.inEntry i) ∧ ∀ i, t.outByte i = s.outByte i := by
  cases h with
  | unchanged | answered | drawn | polled => exact ⟨hb, rfl, rfl, rfl, rfl, fun _ => rfl, fun _ => rfl⟩
  | dropped => exact ⟨by simpa using hb, rfl, rfl, rfl, rfl, fun _ => rfl, fun _ => rfl⟩
  | accepted _ _ _ h0 | cleared _ _ h0 | illegal _ _ h0 | inLen _ _ h0 | inMem _ _ _ h0 => simp [hb] at h0
  | reset => exact absurd rfl ha

theorem HostEffect.eq_resetMachine {s t : State} (h : HostEffect s .reset t) : t = resetMachine s := by
  cases h with
  | unchanged _ ha | dropped _ _ ha | answered _ _ ha => exact absurd rfl ha
  | inMem _ _ _ _ _ ha => simp at ha
  | reset => rfl

/-- A step of a running operation ends it, or uses up one host action of its wait. -/
theorem StepEffect.ends_or_waits {s t : State} {op : Op} (h : StepEffect s t) (he : s.engine = .busy op)
    (hb : s.busy = true) :
    t.busy = false ∨ t.busy = true ∧ t.engine = .busy op ∧ s.engineWait = t.engineWait + 1 := by
  cases h with
  | rest h0 => simp [he] at h0
  | engine op' =>
    obtain ⟨hend, -⟩ := engineStep_spec op' s
    exact .inl hend
  | host a more w _ _ hw hf =>
    by_cases ha : a = .reset
    · subst ha
      rw [hf.eq_resetMachine]
      exact .inl (resetMachine_busy _)
    · obtain ⟨hbusy, hengine, hwait, -⟩ := hf.keeps_running (by simpa using hb) ha
      have hcount : s.engineWait = w + 1 := by simpa [he] using hw
      exact .inr ⟨hbusy, hengine.trans he, hcount.trans (congrArg (· + 1) hwait.symm)⟩

/-- The wait counts down to the end of the operation (70_reset_and_hazards.md R462). -/
theorem exists_run_not_busy {s : State} {op : Op} (he : s.engine = .busy op) (hb : s.busy = true) :
    ∃ k ≤ s.engineWait + 1, ∃ t : State, core.run k s = .next t ∧ t.busy = false := by
  induction hw : s.engineWait generalizing s with
  | zero =>
    obtain ⟨t, ht, hf⟩ := step_effect s
    rcases hf.ends_or_waits he hb with hend | ⟨-, -, hcount⟩
    · exact ⟨1, le_rfl, t, by rw [run_succ 0 ht, run_zero], hend⟩
    · omega
  | succ w ih =>
    obtain ⟨t, ht, hf⟩ := step_effect s
    rcases hf.ends_or_waits he hb with hend | ⟨hbusy, hengine, hcount⟩
    · exact ⟨1, by omega, t, by rw [run_succ 0 ht, run_zero], hend⟩
    · obtain ⟨k, hk, u, hu, hdone⟩ := ih hengine hbusy (by omega)
      exact ⟨k + 1, by omega, u, by rw [run_succ k ht, hu], hdone⟩

/-- Settles O15: under the invariant BUSY is a running operation, whose wait counts down. -/
theorem runningOperationEnds : Obligations.RunningOperationEnds := by
  unfold Obligations.RunningOperationEnds
  intro s hs hb
  obtain ⟨op, he⟩ := hs.status.running_of_busy hb
  exact exists_run_not_busy he hb

/-! ### Polling STATUS -/

theorem and_one_eq_zero_iff (v : Word) : v &&& 1 = 0 ↔ v.getLsbD 0 = false := by
  constructor
  · intro h
    have hbit := congrArg (BitVec.getLsbD · 0) h
    simpa using hbit
  · intro h
    refine BitVec.eq_of_getLsbD_eq fun j _ => ?_
    cases j with
    | zero => simpa using h
    | succ j => simp

/-- Polling STATUS for BUSY = 0 ends when BUSY is 0 (30_encoding.md R131). -/
theorem perform_pollIdle_of_idle {s : State} (hb : s.busy = false) :
    perform pollIdle s = .next (answer s.status s) := by
  have hcond : lastReply (regRead 2 s) &&& 1 = 0 := (and_one_eq_zero_iff s.status).mpr hb
  exact congrArg Host.Outcome.next (if_pos hcond)

/-- Polling STATUS for BUSY = 0 goes on while BUSY is 1 (30_encoding.md R131). -/
theorem perform_pollIdle_of_busy {s : State} (hb : s.busy = true) :
    perform pollIdle s = .next { answer s.status s with pending := pollIdle :: s.pending } := by
  have hcond : ¬lastReply (regRead 2 s) &&& 1 = 0 := fun h => by
    have h0 : s.busy = false := (and_one_eq_zero_iff s.status).mp h
    simp [hb] at h0
  exact congrArg Host.Outcome.next (if_neg hcond)

/-- A poll at the head of the host's actions sees the end of the operation (70_reset_and_hazards.md R462). -/
theorem exists_run_polled {s : State} {op : Op} {rest : List HostAction} (he : s.engine = .busy op)
    (hb : s.busy = true) (hp : s.pending = pollIdle :: rest) :
    ∃ k ≤ s.engineWait + 2, ∃ t : State, core.run k s = .next t ∧ t.busy = false ∧ t.pending = rest := by
  induction hw : s.engineWait generalizing s with
  | zero =>
    obtain ⟨hend, -, -, hidle, -, hpending, -⟩ := engineStep_spec op s
    have hpoll : step (engineStep op s) = perform pollIdle { engineStep op s with pending := rest } :=
      step_idle_cons hidle (hpending.trans hp)
    rw [perform_pollIdle_of_idle (by exact hend)] at hpoll
    have hrun := (run_succ 1 (step_engine he (.inr hw))).trans (run_succ 0 hpoll)
    exact ⟨2, by omega, _, hrun.trans (run_zero _), hend, rfl⟩
  | succ w ih =>
    have hpoll := step_busy_cons he hp hw
    rw [perform_pollIdle_of_busy (by exact hb)] at hpoll
    obtain ⟨k, hk, t, ht, hdone⟩ := ih (s := { answer s.status { s with pending := rest, engineWait := w } with
      pending := pollIdle :: rest }) he hb rfl rfl
    exact ⟨k + 1, by omega, t, (run_succ k hpoll).trans ht, hdone⟩

/-- Settles O16: each round of the poll uses up one host action of the wait, and the round after the end is the last. -/
theorem pollingSeesTheEnd : Obligations.PollingSeesTheEnd := by
  unfold Obligations.PollingSeesTheEnd
  intro s rest hs hb hp
  obtain ⟨op, he⟩ := hs.status.running_of_busy hb
  exact exists_run_polled he hb hp

end Sys2Proof.Machine
end

section
/-! What reaches the engine and what does not (48_commands.md R361, 20_memory.md R99, 10_state.md R36, R42, R48,
R49). -/

namespace Sys2Proof.Machine

/-! ### The input of an operation -/

theorem inputChars_congr {s t : State} (hlen : s.inLen = t.inLen)
    (h : ∀ i < s.inLen.toNat, s.inEntry i = t.inEntry i) : inputChars s = inputChars t := by
  rw [inputChars, inputChars, ← hlen]
  exact List.map_congr_left fun i hi => h i (List.mem_range.mp hi)

/-- The result of an operation reads IN_LEN, its entries and the parameters (48_commands.md R361). -/
theorem engineResult_congr (op : Op) {s t : State} (hparams : s.params = t.params) (hlen : s.inLen = t.inLen)
    (h : ∀ i < s.inLen.toNat, s.inEntry i = t.inEntry i) : engineResult op s = engineResult op t := by
  have hchars := inputChars_congr hlen h
  simp only [engineResult, inputBytes, hparams, hlen, hchars]

/-- Settles O36: two states with the same characters and parameters have the same result. -/
theorem resultDependsOnTheInputOnly : Obligations.ResultDependsOnTheInputOnly := by
  unfold Obligations.ResultDependsOnTheInputOnly
  exact fun op s t => engineResult_congr op

/-- Settles O37: every effect a host action has while BUSY = 1 leaves what the result depends on. -/
theorem hostCannotDisturbARunningOperation : Obligations.HostCannotDisturbARunningOperation := by
  unfold Obligations.HostCannotDisturbARunningOperation
  intro s t op a hs he ha h
  obtain ⟨-, hphase, -⟩ := hs.status
  have hb : s.busy = true := hphase.mpr (by simp [he])
  obtain ⟨-, hengine, -, hparams, hlen, hin, hout⟩ := (perform_cases h).keeps_running hb ha
  exact ⟨hengine.trans he, hlen, ⟨hin, hout⟩, engineResult_congr op hparams hlen fun i _ => hin i⟩

/-! ### Who writes the memories and IN_LEN -/

/-- No host action but reset changes what OUT_MEM reads (10_state.md R49). -/
theorem HostEffect.outByte_eq {s t : State} {a : HostAction} (h : HostEffect s a t) (ha : a ≠ .reset) (i : Nat) :
    t.outByte i = s.outByte i := by
  cases h with
  | reset => exact absurd rfl ha
  | _ => rfl

/-- Settles O38: neither rest nor a host action other than reset changes a byte. -/
theorem onlyTheEngineWritesOutMem : Obligations.OnlyTheEngineWritesOutMem := by
  unfold Obligations.OnlyTheEngineWritesOutMem
  rintro s t h ⟨i, hi⟩
  cases step_cases h with
  | rest => exact absurd rfl hi
  | engine op he => exact .inl ⟨op, he, rfl⟩
  | host a more w _ hp _ hf =>
    by_cases ha : a = .reset
    · exact .inr ⟨more, by rw [hp, ha]⟩
    · exact absurd (hf.outByte_eq ha i) hi

/-- IN_LEN changes only by a write to it while BUSY = 0 and by reset (10_state.md R42). -/
theorem HostEffect.inLen_write {s t : State} {a : HostAction} (h : HostEffect s a t) (hne : t.inLen ≠ s.inLen) :
    s.busy = false ∧ a = .tx (.regWrite 5 t.inLen) ∨ a = .reset := by
  cases h with
  | inLen n v hb hn => exact .inl ⟨hb, by rw [regName_eq_inLen.mp hn]⟩
  | reset => exact .inr rfl
  | _ => exact absurd rfl hne

/-- An IN_MEM entry changes only by a write to it while BUSY = 0 and by reset (10_state.md R48). -/
theorem HostEffect.inEntry_changed {s t : State} {a : HostAction} {i : Nat} (h : HostEffect s a t)
    (hne : t.inEntry i ≠ s.inEntry i) :
    (s.busy = false ∧ i < s.params.maxIn ∧
      ((∃ v, a = .tx (.inWrite (BitVec.ofNat 32 i) v)) ∨ a = .inWriteReply (BitVec.ofNat 32 i))) ∨ a = .reset := by
  cases h with
  | inMem _ j v hb hj ha =>
    rw [inEntry_write] at hne
    obtain rfl : j.toNat = i := by_contra fun hji => hne (if_neg hji)
    have hindex : BitVec.ofNat 32 j.toNat = j := by simp
    rw [hindex]
    exact .inl ⟨hb, hj, ha.imp (fun h => ⟨v, h⟩) And.left⟩
  | reset => exact .inr rfl
  | _ => exact absurd rfl hne

/-- Settles O39: rest and the engine step keep the input, and the host's effects that change it are named. -/
theorem onlyTheHostWritesTheInput : Obligations.OnlyTheHostWritesTheInput := by
  unfold Obligations.OnlyTheHostWritesTheInput
  intro s t h
  cases step_cases h with
  | rest => exact ⟨fun hne => absurd rfl hne, fun i hne => absurd rfl hne⟩
  | engine op =>
    obtain ⟨-, -, -, -, -, -, -, hparams, hlen, hmem, hdraw⟩ := engineStep_spec op s
    have hentry (i : Nat) : (engineStep op s).inEntry i = s.inEntry i := by
      rw [State.inEntry, hmem, hdraw, hparams, State.inEntry]
    exact ⟨fun hne => absurd hlen hne, fun i hne => absurd (hentry i) hne⟩
  | host a more w _ hp _ hf =>
    refine ⟨fun hne => ?_, fun i hne => ?_⟩
    · rcases hf.inLen_write hne with ⟨hb, rfl⟩ | rfl
      · exact .inl ⟨hb, more, hp⟩
      · exact .inr ⟨more, hp⟩
    · rcases hf.inEntry_changed hne with ⟨hb, hi, ⟨v, rfl⟩ | rfl⟩ | rfl
      · exact .inl ⟨hb, hi, more, .inl ⟨v, hp⟩⟩
      · exact .inl ⟨hb, hi, more, .inr hp⟩
      · exact .inr ⟨more, hp⟩

/-! ### Who changes the phase -/

/-- An idle engine is left idle by every host action but the word of ENCODE or DECODE (10_state.md R36). -/
theorem HostEffect.started {s t : State} {a : HostAction} (h : HostEffect s a t) (he : s.engine = .idle)
    (hne : t.engine ≠ .idle) :
    s.busy = false ∧ (a = .tx (.regWrite 1 1) ∧ t.engine = .busy .encode ∨
      a = .tx (.regWrite 1 2) ∧ t.engine = .busy .decode) := by
  cases h with
  | accepted op n v hb hn hv =>
    obtain rfl := regName_eq_cmd.mp hn
    cases op with
    | encode => exact ⟨hb, .inl ⟨by rw [decode_eq_encode.mp hv], rfl⟩⟩
    | decode => exact ⟨hb, .inr ⟨by rw [decode_eq_decode.mp hv], rfl⟩⟩
  | reset => exact absurd rfl hne
  | _ => exact absurd he hne

/-- Settles O40: of the effects of a step, acceptance alone starts an operation, and the engine step and reset alone
end one. -/
theorem phaseChangesByCommandEngineOrReset : Obligations.PhaseChangesByCommandEngineOrReset := by
  unfold Obligations.PhaseChangesByCommandEngineOrReset
  intro s t h
  cases step_cases h with
  | rest he => exact ⟨fun _ hne => absurd he hne, fun op hbusy => by simp [he] at hbusy⟩
  | engine op he =>
    refine ⟨fun hidle => by simp [he] at hidle, fun op' he' _ _ => .inl ?_⟩
    obtain rfl : op = op' := by simpa [he] using he'
    obtain ⟨-, -, -, hend, -⟩ := engineStep_spec op s
    exact ⟨rfl, hend⟩
  | host a more w _ hp _ hf =>
    refine ⟨fun hidle hne => ?_, fun op he hne hb => .inr ?_⟩
    · obtain ⟨hb, ⟨rfl, hop⟩ | ⟨rfl, hop⟩⟩ := hf.started hidle hne
      · exact ⟨hb, more, .inl ⟨hp, hop⟩⟩
      · exact ⟨hb, more, .inr ⟨hp, hop⟩⟩
    · by_cases ha : a = .reset
      · exact ⟨more, by rw [hp, ha]⟩
      · obtain ⟨-, hengine, -⟩ := hf.keeps_running (by simpa using hb) ha
        exact absurd (hengine.trans he) hne

end Sys2Proof.Machine
end

section
/-! HDR_PARSE by the shape of its bits (44_header_codec.md R266 to R276): every bit sequence runs short, has a malformed
marker, or is a whole header, and each of the three has its own answer. -/

namespace Sys2Proof.Machine

/-! ### The answers -/

/-- Steps 1 to 3 find the marker behind the padding-count field `p` and the count field `n` (44_header_codec.md R270 to
R272). -/
theorem parseHeader_malformed_of_marker {p n m tail bits : Bits} (hp : p.length = 3) (hn : n.length = 7)
    (ht : tail.length = uintOf p) (hbits : bits = p ++ (n ++ m) ++ tail)
    (hm : markerLength m = m.length ∨ markerLength m = 0 ∨ 127 < markerLength m) :
    parseHeader bits = .error (raiseAt .malformedHeader .header) := by
  rw [hbits, parseHeader_split p _ tail hp ht, parseFields_split p n m tail _ hp hn]
  by_cases hend : markerLength m = m.length
  · rw [if_pos hend]
  · rw [if_neg hend, if_pos (hm.resolve_left hend)]

/-- Step 4 begins behind a whole marker, and its error is the answer (44_header_codec.md R273). -/
theorem parseHeader_error_of_entries {p n m tail bits : Bits} {d : Nat} {x : Raise} (hp : p.length = 3)
    (hn : n.length = 7) (ht : tail.length = uintOf p) (hbits : bits = p ++ (n ++ m) ++ tail)
    (hm : markerLength m = d) (hend : d < m.length) (hpos : 1 ≤ d) (hmax : d ≤ 127)
    (h : parseEntries bits d (10 + m.length) (uintOf n) (10 + d) = .error x) : parseHeader bits = .error x := by
  have he : 3 + (n ++ m).length = 10 + m.length := by simp [hn]; omega
  rw [hbits] at h ⊢
  rw [parseHeader_split p _ tail hp ht, parseFields_split p n m tail _ hp hn, hm, if_neg hend.ne, if_neg (by omega),
    he, h]

/-- Step 4's entries are those of the header, and its cursor is at the first payload bit (44_header_codec.md R273,
R274). -/
theorem parseHeader_ok_of_entries {p n m tail bits : Bits} {d c : Nat} {entries : List (Bits × Byte)}
    (hp : p.length = 3) (hn : n.length = 7) (ht : tail.length = uintOf p) (hbits : bits = p ++ (n ++ m) ++ tail)
    (hm : markerLength m = d) (hend : d < m.length) (hpos : 1 ≤ d) (hmax : d ≤ 127)
    (h : parseEntries bits d (10 + m.length) (uintOf n) (10 + d) = .ok (entries, c)) :
    parseHeader bits = .ok ⟨uintOf p, uintOf n, d, entries, c, 10 + m.length⟩ := by
  have he : 3 + (n ++ m).length = 10 + m.length := by simp [hn]; omega
  rw [hbits] at h ⊢
  rw [parseHeader_split p _ tail hp ht, parseFields_split p n m tail _ hp hn, hm, if_neg hend.ne, if_neg (by omega),
    he, h]

theorem markerLength_lt_of_stop (d : Nat) (rest : Bits) : d < (ones d ++ false :: rest).length := by simp

/-- The data bits end before the last entry (44_header_codec.md R273). -/
theorem parseHeader_short_entries {p n rest tail : Bits} {d : Nat} (hp : p.length = 3) (hn : n.length = 7)
    (ht : tail.length = uintOf p) (hpos : 1 ≤ d) (hmax : d ≤ 127) (hshort : rest.length + 1 < uintOf n * (d + 8)) :
    parseHeader (p ++ n ++ ones d ++ false :: rest ++ tail) = .error (raiseAt .truncatedStream .header) := by
  refine parseHeader_error_of_entries (m := ones d ++ false :: rest) hp hn ht (by simp)
    (markerLength_ones_append d rest) (markerLength_lt_of_stop d rest) hpos hmax (parseEntries_short _ _ _ _ _ ?_ ?_)
  · simp
  · simp
    omega

theorem parseHeader_of_truncated {bits : Bits} (h : TruncatedHeader bits) :
    parseHeader bits = .error (raiseAt .truncatedStream .header) := by
  rcases h with hshort | ⟨p, rest, rfl, hp, hpad⟩ | ⟨p, data, tail, rfl, hp, ht, hdata⟩ |
    ⟨p, n, rest, tail, d, rfl, hp, hn, ht, hpos, hmax, hshort⟩
  · rw [parseHeader, if_pos hshort]
  · have hfield : slice (p ++ rest) 0 3 = p := slice_append_zero p rest 3 hp
    rw [parseHeader, hfield]
    simp [hp, hpad]
  · rw [parseHeader_split p data tail hp ht, parseFields, if_pos (by omega)]
  · exact parseHeader_short_entries hp hn ht hpos hmax hshort

theorem parseHeader_of_malformed {bits : Bits} (h : MalformedHeader bits) :
    parseHeader bits = .error (raiseAt .malformedHeader .header) := by
  obtain ⟨p, n, tail, d, hp, hn, ht, hopen | ⟨hd, rest, hstop⟩⟩ := h
  · refine parseHeader_malformed_of_marker (m := ones d) hp hn ht (by simp [hopen]) (.inl ?_)
    rw [markerLength_ones, ones_length]
  · refine parseHeader_malformed_of_marker (m := ones d ++ false :: rest) hp hn ht (by simp [hstop]) (.inr ?_)
    rwa [markerLength_ones_append]

/-! ### The three shapes -/

/-- The bits hold a whole header: the marker ends within its range, and the entries fit the data bits. -/
def WholeHeader (bits : Bits) : Prop :=
  ∃ p n rest tail d, bits = p ++ n ++ ones d ++ false :: rest ++ tail ∧ p.length = 3 ∧ n.length = 7 ∧
    tail.length = uintOf p ∧ 1 ≤ d ∧ d ≤ 127 ∧ uintOf n * (d + 8) ≤ rest.length + 1

theorem parseHeader_of_whole {bits : Bits} (h : WholeHeader bits) : ∃ hd, parseHeader bits = .ok hd := by
  obtain ⟨p, n, rest, tail, d, hbits, hp, hn, ht, hpos, hmax, hroom⟩ := h
  obtain ⟨⟨entries, c⟩, hentries⟩ :=
    parseEntries_room bits d (10 + (ones d ++ false :: rest).length) (uintOf n) (10 + d) (by simp; omega)
  exact ⟨_, parseHeader_ok_of_entries (m := ones d ++ false :: rest) hp hn ht (by simp [hbits])
    (markerLength_ones_append d rest) (markerLength_lt_of_stop d rest) hpos hmax hentries⟩

/-- A sequence of at least `k` bits begins with `k` bits. -/
theorem exists_append_of_le_length {s : Bits} {k : Nat} (h : k ≤ s.length) : ∃ x y, s = x ++ y ∧ x.length = k :=
  ⟨s.take k, s.drop k, (List.take_append_drop k s).symm, by simp [h]⟩

theorem header_shapes (bits : Bits) : TruncatedHeader bits ∨ MalformedHeader bits ∨ WholeHeader bits := by
  by_cases h3 : bits.length < 3
  · exact .inl (.inl h3)
  obtain ⟨p, body, rfl, hp⟩ := exists_append_of_le_length (Nat.not_lt.mp h3)
  by_cases hpad : body.length < uintOf p
  · exact .inl (.inr (.inl ⟨p, body, rfl, hp, hpad⟩))
  obtain ⟨data, tail, rfl, hdata⟩ := exists_append_of_le_length (Nat.sub_le body.length (uintOf p))
  have ht : tail.length = uintOf p := by simp at hdata hpad; omega
  by_cases h7 : data.length < 7
  · exact .inl (.inr (.inr (.inl ⟨p, data, tail, by simp, hp, ht, h7⟩)))
  obtain ⟨n, m, rfl, hn⟩ := exists_append_of_le_length (Nat.not_lt.mp h7)
  rcases marker_split m with hm | ⟨rest, hm⟩
  · exact .inr (.inl ⟨p, n, tail, markerLength m, hp, hn, ht, .inl (by rw [← hm]; simp)⟩)
  · generalize markerLength m = d at hm
    subst hm
    by_cases hd : d = 0 ∨ 127 < d
    · exact .inr (.inl ⟨p, n, tail, d, hp, hn, ht, .inr ⟨hd, rest, by simp⟩⟩)
    by_cases hroom : uintOf n * (d + 8) ≤ rest.length + 1
    · exact .inr (.inr ⟨p, n, rest, tail, d, by simp, hp, hn, ht, by omega, by omega, hroom⟩)
    · exact .inl (.inr (.inr (.inr ⟨p, n, rest, tail, d, by simp, hp, hn, ht, by omega, by omega, by omega⟩)))

theorem parseHeader_eq_truncated_iff (bits : Bits) :
    parseHeader bits = .error (raiseAt .truncatedStream .header) ↔ TruncatedHeader bits := by
  refine ⟨fun h => ?_, parseHeader_of_truncated⟩
  rcases header_shapes bits with hshort | hmal | hwhole
  · exact hshort
  · simp [parseHeader_of_malformed hmal, raiseAt] at h
  · obtain ⟨hd, hok⟩ := parseHeader_of_whole hwhole
    simp [hok] at h

theorem parseHeader_eq_malformed_iff (bits : Bits) :
    parseHeader bits = .error (raiseAt .malformedHeader .header) ↔ MalformedHeader bits := by
  refine ⟨fun h => ?_, parseHeader_of_malformed⟩
  rcases header_shapes bits with hshort | hmal | hwhole
  · simp [parseHeader_of_truncated hshort, raiseAt] at h
  · exact hmal
  · obtain ⟨hd, hok⟩ := parseHeader_of_whole hwhole
    simp [hok] at h

/-! ### The errors of HDR_PARSE at the end of DECODE -/

/-- 60_exceptions.md R413. -/
theorem errCodeWord_truncatedStream : errCodeWord .truncatedStream .header = 0x00000305 := by decide

/-- 60_exceptions.md R412. -/
theorem errCodeWord_malformedHeader : errCodeWord .malformedHeader .header = 0x00000304 := by decide

theorem decode_of_truncated {s : State} (hin : s.inLen.toNat ≤ s.params.maxIn)
    (h : TruncatedHeader (unpack (inputBytes s))) : Failed 0x00000305 0 s (engineStep .decode s) := by
  rw [← errCodeWord_truncatedStream]
  exact engineStep_decode_failed_raiseAt (by decide) hin (decodeBytes_header_error (parseHeader_of_truncated h))

theorem decode_of_malformed {s : State} (hin : s.inLen.toNat ≤ s.params.maxIn)
    (h : MalformedHeader (unpack (inputBytes s))) : Failed 0x00000304 0 s (engineStep .decode s) := by
  rw [← errCodeWord_malformedHeader]
  exact engineStep_decode_failed_raiseAt (by decide) hin (decodeBytes_header_error (parseHeader_of_malformed h))

/-- Settles O49: the three shapes cover every bit sequence, and their answers differ. -/
theorem headerErrorsAreReported : Obligations.HeaderErrorsAreReported := by
  unfold Obligations.HeaderErrorsAreReported
  exact ⟨parseHeader_eq_truncated_iff, parseHeader_eq_malformed_iff,
    fun s hin => ⟨decode_of_truncated hin, decode_of_malformed hin⟩⟩

/-- Settles O50: the entries are the last part of a header that can run short. -/
theorem shortEntriesAreTruncated : Obligations.ShortEntriesAreTruncated := by
  unfold Obligations.ShortEntriesAreTruncated
  intro p n rest tail d hp hn ht hpos hmax hshort
  refine ⟨parseHeader_short_entries hp hn ht hpos hmax hshort, fun s hin hbits => decode_of_truncated hin ?_⟩
  exact .inr (.inr (.inr ⟨p, n, rest, tail, d, hbits, hp, hn, ht, hpos, hmax, hshort⟩))

/-- Fewer bits than the two fixed fields run short: a malformed or a whole header holds both. -/
theorem truncatedHeader_of_length_lt {bits : Bits} (h : bits.length < 10) : TruncatedHeader bits := by
  rcases header_shapes bits with hshort | ⟨p, n, tail, d, hp, hn, -, hbits⟩ |
    ⟨p, n, rest, tail, d, rfl, hp, hn, -⟩
  · exact hshort
  · rcases hbits with rfl | ⟨-, rest, rfl⟩ <;> simp at h <;> omega
  · simp at h
    omega

@[simp] theorem inputChars_length (s : State) : (inputChars s).length = s.inLen.toNat := by simp [inputChars]

@[simp] theorem inputBytes_length (s : State) : (inputBytes s).length = s.inLen.toNat := by simp [inputBytes]

/-- Settles O35: one byte holds the padding-count field, but not the count field. -/
theorem tinyBufferIsTruncated : Obligations.TinyBufferIsTruncated := by
  unfold Obligations.TinyBufferIsTruncated
  intro s hlen hin
  refine decode_of_truncated hin (truncatedHeader_of_length_lt ?_)
  rw [unpack_length, inputBytes_length]
  omega

/-! ### What HDR_SER wrote -/

theorem entryBits_paddedEntries (table : List (Byte × Bits)) (depth : Nat) :
    entryBits (paddedEntries table depth) = table.flatMap (headerEntry depth) := by
  rw [entryBits, paddedEntries, List.flatMap_map]
  rfl

theorem paddedEntries_length (table : List (Byte × Bits)) (depth : Nat) :
    (paddedEntries table depth).length = table.length := List.length_map _

theorem paddedEntries_width {table : List (Byte × Bits)} {depth : Nat} (h : ∀ p ∈ table, p.2.length ≤ depth) :
    ∀ q ∈ paddedEntries table depth, q.1.length = depth := by
  intro q hq
  obtain ⟨p, hp, rfl⟩ := List.mem_map.mp hq
  have hle := h p hp
  simp
  omega

/-- A code that does not begin with 1 ends the marker in front of it once it is padded (44_header_codec.md R264). -/
theorem padded_code_begins_with_zero {c : Bits} {depth : Nat} (hc : c.head? ≠ some true) (hpos : 1 ≤ depth) :
    ∃ r, c ++ zeros (depth - c.length) = false :: r := by
  cases c with
  | nil =>
    obtain ⟨d, rfl⟩ := Nat.exists_eq_add_of_le' hpos
    exact ⟨zeros d, rfl⟩
  | cons b c =>
    obtain rfl : b = false := by simpa using hc
    exact ⟨_, rfl⟩

theorem entryBits_begin_with_zero {s : Byte} {c : Bits} {more : List (Byte × Bits)} {depth : Nat}
    (hc : c.head? ≠ some true) (hpos : 1 ≤ depth) :
    ∃ r, entryBits (paddedEntries ((s, c) :: more) depth) = false :: r := by
  obtain ⟨r, hr⟩ := padded_code_begins_with_zero hc hpos
  refine ⟨r ++ (bitsOfByte s ++ entryBits (paddedEntries more depth)), ?_⟩
  simp [entryBits, paddedEntries, hr]

theorem serializeHeader_eq (table : List (Byte × Bits)) (depth : Nat) :
    serializeHeader table depth =
      bitsOf 7 table.length ++ (ones depth ++ entryBits (paddedEntries table depth)) := by
  rw [entryBits_paddedEntries, serializeHeader, List.append_assoc]

/-- HDR_PARSE gives back the entries behind a marker of their width, where the first of their bits ends the marker
(44_header_codec.md R273, R276). -/
theorem parseHeader_entryBits {p n tail : Bits} {entries : List (Bits × Byte)} {d : Nat} (pay r : Bits)
    (hp : p.length = 3) (hn : n.length = 7) (ht : tail.length = uintOf p) (hcount : uintOf n = entries.length)
    (hwidth : ∀ q ∈ entries, q.1.length = d) (hpos : 1 ≤ d) (hmax : d ≤ 127)
    (hstart : entryBits entries = false :: r) :
    parseHeader (p ++ (n ++ (ones d ++ (entryBits entries ++ pay))) ++ tail) =
      .ok ⟨tail.length, entries.length, d, entries, 10 + d + entries.length * (d + 8),
        10 + d + entries.length * (d + 8) + pay.length⟩ := by
  have hlen := entryBits_length entries d hwidth
  have hmark : markerLength (ones d ++ (entryBits entries ++ pay)) = d := by
    rw [hstart]
    exact markerLength_ones_append d (r ++ pay)
  have hend : (ones d ++ (entryBits entries ++ pay)).length = d + (entries.length * (d + 8) + pay.length) := by
    simp [hlen]
  have hstop : d < (ones d ++ (entryBits entries ++ pay)).length := by simp [hstart]
  have hfront : (p ++ n ++ ones d).length = 10 + d := by simp [hp, hn]; omega
  have hparse := parseEntries_entryBits entries d (10 + (ones d ++ (entryBits entries ++ pay)).length)
    (p ++ n ++ ones d) (pay ++ tail) hwidth (by rw [hfront, hend]; omega)
  have hbits : p ++ n ++ ones d ++ entryBits entries ++ (pay ++ tail) =
      p ++ (n ++ (ones d ++ (entryBits entries ++ pay))) ++ tail := by simp
  rw [hbits, hfront, ← hcount] at hparse
  rw [parseHeader_ok_of_entries hp hn ht rfl hmark hstop hpos hmax hparse, ← ht, hcount, hend]
  congr 2
  omega

/-- HDR_PARSE of a serialized table followed by a payload and padding (44_header_codec.md R276). -/
theorem parseHeader_serializeHeader {table : List (Byte × Bits)} {depth : Nat} (pay : Bits) {tail : Bits} {s₀ : Byte}
    {c₀ : Bits} {more : List (Byte × Bits)} (htable : table = (s₀, c₀) :: more) (hcount : table.length ≤ 127)
    (hpos : 1 ≤ depth) (hmax : depth ≤ 127) (hwidth : ∀ p ∈ table, p.2.length ≤ depth) (hc : c₀.head? ≠ some true)
    (ht : tail.length < 8) :
    parseHeader (bitsOf 3 tail.length ++ serializeHeader table depth ++ pay ++ tail) =
      .ok ⟨tail.length, table.length, depth, paddedEntries table depth, 10 + depth + table.length * (depth + 8),
        10 + depth + table.length * (depth + 8) + pay.length⟩ := by
  have hpad : tail.length = uintOf (bitsOf 3 tail.length) := by
    rw [uintOf_bitsOf]
    omega
  have hnum : uintOf (bitsOf 7 table.length) = (paddedEntries table depth).length := by
    rw [uintOf_bitsOf, paddedEntries_length]
    omega
  obtain ⟨r, hstart⟩ := entryBits_begin_with_zero (s := s₀) (more := more) hc hpos
  rw [← htable] at hstart
  have hparse := parseHeader_entryBits pay r (bitsOf_length 3 _) (bitsOf_length 7 _) hpad hnum
    (paddedEntries_width hwidth) hpos hmax hstart
  rw [paddedEntries_length] at hparse
  rw [← hparse, serializeHeader_eq]
  simp

/-- Settles O51: the first code, padded, begins with the 0 bit that ends the marker, and the entries are read back. -/
theorem parseInvertsSerialize : Obligations.ParseInvertsSerialize := by
  unfold Obligations.ParseInvertsSerialize
  exact fun table depth pay tail s₀ c₀ more => parseHeader_serializeHeader pay

end Sys2Proof.Machine
end

section
/-! DECODE of a serialized code table and the payload behind it (45_tree_reconstructor.md R298, R301;
47_payload_codec.md R334 to R340). -/

namespace Sys2Proof.Machine

/-! ### A header without entries -/

/-- A bit for which the node has no child ends the walk (47_payload_codec.md R336). -/
theorem walk_no_child (root : Tree) {node : Tree} (maxOut k : Nat) {b : Bool} (rest : Bits)
    (h : childAt node b = .absent) :
    walk root maxOut (b :: rest) node k = .error (raiseAt .invalidPath .payload) := by
  rw [walk, h]

/-- The root of no entries has no child, and the 0 bit that ended the marker is still to be read
(45_tree_reconstructor.md R298). -/
theorem decodeParsed_of_count_zero {bits : Bits} {h : Header} (maxOut : Nat) (hparse : parseHeader bits = .ok h)
    (hcount : h.count = 0) : decodeParsed maxOut bits h = .error (raiseAt .invalidPath .payload) := by
  obtain ⟨-, -, -, -, hentries, -, hcursor, -, hdata, hlen⟩ := parseHeader_ok hparse
  rw [hcount] at hentries hcursor
  have hnil : h.entries = [] := List.length_eq_zero_iff.mp hentries
  have hpay : slice bits h.c h.e ≠ [] := by
    refine List.length_pos_iff.mp ?_
    rw [slice_length]
    omega
  obtain ⟨b, rest, hbits⟩ := List.exists_cons_of_ne_nil hpay
  have hroot : reconstruct h.entries = .ok (.internal .absent .absent) := by
    rw [hnil]
    rfl
  rw [decodeParsed, hroot, hbits]
  simp only [walk_no_child _ maxOut 0 rest (show childAt (.internal .absent .absent) b = .absent by cases b <;> rfl)]

theorem decodeBytes_of_parseHeader {bytes : List Byte} {h : Header} (maxOut : Nat)
    (hparse : parseHeader (unpack bytes) = .ok h) :
    decodeBytes maxOut bytes = decodeParsed maxOut (unpack bytes) h := by
  rw [decodeBytes, hparse]

/-- 60_exceptions.md R415, stage PAYLOAD. -/
theorem errCodeWord_invalidPath_payload : errCodeWord .invalidPath .payload = 0x00000507 := by decide

/-- 60_exceptions.md R414. -/
theorem errCodeWord_unexpectedEndOfStream : errCodeWord .unexpectedEndOfStream .payload = 0x00000506 := by decide

/-- 60_exceptions.md R416. -/
theorem errCodeWord_outputOverflow : errCodeWord .outputOverflow .output = 0x00000608 := by decide

/-- Settles O55: such a tree has no leaf to reach, and there is a data bit to read. -/
theorem countZeroEndsInInvalidPath : Obligations.CountZeroEndsInInvalidPath := by
  unfold Obligations.CountZeroEndsInInvalidPath
  refine fun h hcount => ⟨fun maxOut bits hparse => decodeParsed_of_count_zero maxOut hparse hcount,
    fun s hin hparse => ?_⟩
  rw [← errCodeWord_invalidPath_payload]
  refine engineStep_decode_failed_raiseAt (by decide) hin ?_
  rw [decodeBytes_of_parseHeader _ hparse, decodeParsed_of_count_zero _ hparse hcount]

/-! ### The walk over the codes of a table -/

theorem codeOf_mem {table : List (Byte × Bits)} {s : Byte} (hn : (table.map Prod.fst).Nodup)
    (hs : s ∈ table.map Prod.fst) : (s, codeOf table s) ∈ table := by
  obtain ⟨⟨s', c⟩, hp, rfl⟩ := List.mem_map.mp hs
  rwa [codeOf_eq hn hp]

section
variable {t root : Tree} {syms : List Byte} {maxOut : Nat}
variable (ht : FullTree t) (hroot : visit root [] = codeTable t) (hn : ((codeTable t).map Prod.fst).Nodup)
  (hs : ∀ s ∈ syms, s ∈ (codeTable t).map Prod.fst)
include ht hroot hn hs

/-- The walk over the codes of symbols and the bits behind them, by whether the symbols fit. -/
theorem walk_codes_append (rest : Bits) :
    walk root maxOut (encodePayload (codeTable t) syms ++ rest) root 0 =
      if syms.length ≤ maxOut then (walk root maxOut rest root syms.length).map (syms ++ ·)
      else .error (raiseAt .outputOverflow .output) := by
  obtain ⟨-, hpos, -⟩ := codeTable_spec ht
  have hcode : ∀ s ∈ syms, (s, codeOf (codeTable t) s) ∈ visit root [] ∧ codeOf (codeTable t) s ≠ [] :=
    fun s hmem => by
      have hin := codeOf_mem hn (hs s hmem)
      exact ⟨hroot ▸ hin, List.length_pos_iff.mp (hpos _ hin)⟩
  rw [walk_encodePayload maxOut (codeTable t) syms rest 0 (Nat.zero_le _) hcode, Nat.zero_add]
  cases walk root maxOut rest root syms.length <;> rfl

/-- The codes of symbols that fit give the symbols (47_payload_codec.md R337, R340). -/
theorem walk_codes (hfit : syms.length ≤ maxOut) :
    walk root maxOut (encodePayload (codeTable t) syms) root 0 = .ok syms := by
  have hwalk := walk_codes_append ht hroot hn hs (maxOut := maxOut) []
  rw [List.append_nil, if_pos hfit, walk, if_pos rfl] at hwalk
  rw [hwalk]
  exact congrArg Except.ok (List.append_nil syms)

/-- The codes of too many symbols overflow (47_payload_codec.md R338). -/
theorem walk_codes_overflow (hmany : maxOut < syms.length) :
    walk root maxOut (encodePayload (codeTable t) syms) root 0 = .error (raiseAt .outputOverflow .output) := by
  have hwalk := walk_codes_append ht hroot hn hs (maxOut := maxOut) []
  rwa [List.append_nil, if_neg (Nat.not_le.mpr hmany)] at hwalk

/-- Behind the codes of symbols that fit, the part of a code is an unexpected end (47_payload_codec.md R335). -/
theorem walk_codes_inside {p q : Bits} {c : Byte} (hfit : syms.length ≤ maxOut) (hp : p ≠ []) (hq : q ≠ [])
    (hc : (c, p ++ q) ∈ codeTable t) :
    walk root maxOut (encodePayload (codeTable t) syms ++ p) root 0 =
      .error (raiseAt .unexpectedEndOfStream .payload) := by
  rw [walk_codes_append ht hroot hn hs, if_pos hfit,
    walk_inside root maxOut root c p q syms.length hq (hroot ▸ hc) (fun _ => le_rfl) (fun h => absurd h hp)]
  rfl

end

/-! ### The stages of DECODE on a serialized table -/

/-- RECON of a full tree's entries is a tree with the leaves of the code table (45_tree_reconstructor.md R301). -/
theorem reconstruct_codeTable {t : Tree} (ht : FullTree t) :
    ∃ root, reconstruct (paddedEntries (codeTable t) (codeDepth (codeTable t))) = .ok root ∧
      visit root [] = codeTable t := by
  cases t with
  | absent => exact ht.elim
  | leaf s => exact ⟨_, reconstruct_codeTable_leaf s, rfl⟩
  | internal l r => exact ⟨_, reconstruct_codeTable_internal ht.1 ht.2, rfl⟩

/-- The bits of a stream in front of its payload (44_header_codec.md R265, 10_state.md R46). -/
def headerLength (table : List (Byte × Bits)) : Nat := 10 + codeDepth table + table.length * (codeDepth table + 8)

/-- The header with its padding-count field (44_header_codec.md R265). -/
theorem headerLength_eq (table : List (Byte × Bits)) :
    headerLength table = 3 + (serializeHeader table (codeDepth table)).length := by
  rw [serializeHeader_length _ _ fun p => codeDepth_ge, headerLength]
  omega

/-- HDR_PARSE of the serialized code table of a full tree: the first code is zeros, so it ends the marker. -/
theorem parseHeader_codeTable {t : Tree} (pay : Bits) {tail : Bits} (ht : FullTree t)
    (hcount : (codeTable t).length ≤ 127) (hdepth : codeDepth (codeTable t) ≤ 127) (htail : tail.length < 8) :
    parseHeader (bitsOf 3 tail.length ++ serializeHeader (codeTable t) (codeDepth (codeTable t)) ++ pay ++ tail) =
      .ok ⟨tail.length, (codeTable t).length, codeDepth (codeTable t),
        paddedEntries (codeTable t) (codeDepth (codeTable t)), headerLength (codeTable t),
        headerLength (codeTable t) + pay.length⟩ := by
  obtain ⟨-, -, ⟨s, k, more, hfirst⟩, hpos, -⟩ := codeTable_spec ht
  have hzeros : (zeros k).head? ≠ some true := by cases k <;> simp [zeros, List.replicate_succ]
  exact parseHeader_serializeHeader pay hfirst hcount hpos hdepth (fun p => codeDepth_ge) hzeros htail

/-- DECODE of a serialized code table is the walk over the bits behind it, in any tree with those codes. -/
theorem decodeBytes_serialized {t : Tree} {bytes : List Byte} {pay tail : Bits} {maxOut : Nat}
    {answer : Result (List Byte)} (ht : FullTree t) (hcount : (codeTable t).length ≤ 127)
    (hdepth : codeDepth (codeTable t) ≤ 127) (htail : tail.length < 8)
    (hbits : unpack bytes =
      bitsOf 3 tail.length ++ serializeHeader (codeTable t) (codeDepth (codeTable t)) ++ pay ++ tail)
    (hwalk : ∀ root, visit root [] = codeTable t → walk root maxOut pay root 0 = answer) :
    decodeBytes maxOut bytes = answer.map fun out =>
      ⟨out, tail.length, (codeTable t).length, codeDepth (codeTable t), headerLength (codeTable t), pay.length⟩ := by
  obtain ⟨root, hrecon, hroot⟩ := reconstruct_codeTable ht
  have hparse := parseHeader_codeTable pay ht hcount hdepth htail
  have hslice := slice_append (bitsOf 3 tail.length ++ serializeHeader (codeTable t) (codeDepth (codeTable t))) pay
    tail (headerLength (codeTable t)) _ (by rw [List.length_append, bitsOf_length, headerLength_eq]) rfl
  rw [← hbits] at hparse hslice
  rw [decodeBytes_of_parseHeader _ hparse, decodeParsed, hrecon]
  simp only [hslice, hwalk root hroot, Nat.add_sub_cancel_left]
  cases answer <;> rfl

/-- A DECODE whose header and tree are right ends by the error of its walk (60_exceptions.md R405). -/
theorem engineStep_decode_failed_of_walk {s : State} {h : Header} {root : Tree} {e : ErrorName} {st : Stage}
    (he : e ≠ .unsupportedSymbol) (hin : s.inLen.toNat ≤ s.params.maxIn)
    (hparse : parseHeader (unpack (inputBytes s)) = .ok h) (hrecon : reconstruct h.entries = .ok root)
    (hwalk : walk root s.params.maxOut (slice (unpack (inputBytes s)) h.c h.e) root 0 = .error (raiseAt e st)) :
    Failed (errCodeWord e st) 0 s (engineStep .decode s) :=
  engineStep_decode_failed_raiseAt he hin (decodeBytes_walk_error hparse hrecon hwalk)

/-- Settles O56: a symbol is emitted at the end of each code, and the three errors of the walk are those of DECODE. -/
theorem walkReadsCodeByCode : Obligations.WalkReadsCodeByCode := by
  unfold Obligations.WalkReadsCodeByCode
  rw [← errCodeWord_invalidPath_payload, ← errCodeWord_unexpectedEndOfStream, ← errCodeWord_outputOverflow]
  refine ⟨fun root node maxOut k b rest => walk_no_child root maxOut k rest, fun s h root hin hparse hrecon => ?_, ?_⟩
  · exact ⟨engineStep_decode_failed_of_walk (by decide) hin hparse hrecon,
      engineStep_decode_failed_of_walk (by decide) hin hparse hrecon,
      engineStep_decode_failed_of_walk (by decide) hin hparse hrecon⟩
  · intro l r syms hl hr root table hn hs
    have hfull : FullTree root := ⟨hl, hr⟩
    refine ⟨fun maxOut => ⟨walk_codes hfull rfl hn hs, walk_codes_overflow hfull rfl hn hs, fun p q c =>
      walk_codes_inside hfull rfl hn hs⟩, fun s p tail hin hcount hdepth htail hbits => ⟨?_, ?_⟩⟩
    · rintro hmany rfl
      rw [List.append_nil] at hbits
      exact engineStep_decode_failed_raiseAt (by decide) hin (decodeBytes_serialized hfull hcount hdepth htail hbits
        fun root' hroot => walk_codes_overflow hfull hroot hn hs hmany)
    · intro q c hfit hp hq hc
      exact engineStep_decode_failed_raiseAt (by decide) hin (decodeBytes_serialized hfull hcount hdepth htail hbits
        fun root' hroot => walk_codes_inside hfull hroot hn hs hfit hp hq hc)

/-! ### The stream of ENCODE -/

/-- The stream of symbols under a code table (48_commands.md R356). -/
def tableStream (table : List (Byte × Bits)) (syms : List Byte) : Bits :=
  streamBits (serializeHeader table (codeDepth table)) (encodePayload table syms)

/-- The success of either operation on the stream of symbols under a code table: what it puts into OUT_MEM, and the
values of the stream's header (48_commands.md R356, R357). -/
def streamSuccess (table : List (Byte × Bits)) (syms out : List Byte) : Success :=
  ⟨out, paddingBits (headerLength table + (encodePayload table syms).length), table.length, codeDepth table,
    headerLength table, (encodePayload table syms).length⟩

theorem unpaddedLength_table (table : List (Byte × Bits)) (pay : Bits) :
    unpaddedLength (serializeHeader table (codeDepth table)) pay = headerLength table + pay.length := by
  rw [unpaddedLength, headerLength_eq]

/-- The parts of the stream (46_bitstream_packer.md R312). -/
theorem tableStream_eq (table : List (Byte × Bits)) (syms : List Byte) :
    tableStream table syms =
      bitsOf 3 (paddingBits (headerLength table + (encodePayload table syms).length)) ++
        serializeHeader table (codeDepth table) ++ encodePayload table syms ++
        zeros (paddingBits (headerLength table + (encodePayload table syms).length)) := by
  rw [tableStream, streamBits, unpaddedLength_table]

/-- DECODE of the stream of symbols gives the symbols and the values of their header (47_payload_codec.md R340). -/
theorem decodeBytes_tableStream {t : Tree} {syms bytes : List Byte} {maxOut : Nat} (ht : FullTree t)
    (hn : ((codeTable t).map Prod.fst).Nodup) (hcount : (codeTable t).length ≤ 127)
    (hdepth : codeDepth (codeTable t) ≤ 127) (hs : ∀ s ∈ syms, s ∈ (codeTable t).map Prod.fst)
    (hfit : syms.length ≤ maxOut) (hbits : unpack bytes = tableStream (codeTable t) syms) :
    decodeBytes maxOut bytes = .ok (streamSuccess (codeTable t) syms syms) := by
  obtain ⟨hpad, -⟩ := paddingBits_spec (headerLength (codeTable t) + (encodePayload (codeTable t) syms).length)
  have hparts := hbits.trans (tableStream_eq (codeTable t) syms)
  generalize hp : paddingBits (headerLength (codeTable t) + (encodePayload (codeTable t) syms).length) = pad
    at hpad hparts
  rw [← zeros_length pad] at hpad
  have hserial : unpack bytes = bitsOf 3 (zeros pad).length ++
      serializeHeader (codeTable t) (codeDepth (codeTable t)) ++ encodePayload (codeTable t) syms ++ zeros pad := by
    rw [hparts, zeros_length]
  rw [decodeBytes_serialized ht hcount hdepth hpad hserial fun root hroot => walk_codes ht hroot hn hs hfit,
    zeros_length, ← hp]
  rfl

end Sys2Proof.Machine
end

section
/-! Whole operations: ENCODE and DECODE from their words to their ends (48_commands.md R351 to R360), the wire format
(30_encoding.md R120 to R122), the round trip (47_payload_codec.md R340), and the size of the default build
(00_scope.md R13). -/

namespace Sys2Proof.Machine

/-! ### ENCODE -/

/-- What a successful ENCODE wrote: the stream of the input's symbols under the code table of a full tree, whose leaves
they are (48_commands.md R356). -/
theorem encodeChars_ok {maxOut : Nat} {chars : List Word} {r : Success} (h : encodeChars maxOut chars = .ok r) :
    ∃ t, FullTree t ∧ ((codeTable t).map Prod.fst).Perm (chars.map symbolOf).dedup ∧
      (chars.map symbolOf).dedup.length < 128 ∧ unpack r.out = tableStream (codeTable t) (chars.map symbolOf) ∧
      r = streamSuccess (codeTable t) (chars.map symbolOf) r.out := by
  have hv := encodeChars_ok_valid h
  have ⟨_, _, hlt⟩ := hv
  obtain ⟨hfull, hperm, hsyms⟩ := encodeChars_valid maxOut hv
  rw [hsyms] at h
  refine ⟨_, hfull, hperm, hlt, ?_⟩
  rcases encodeSymbols_cases maxOut (chars.map symbolOf) (build (freqTable (chars.map symbolOf))) with
    ⟨-, herr⟩ | ⟨-, out, hok, -, hbits⟩
  · rw [herr] at h
    cases h
  · rw [hok] at h
    cases h
    rw [← headerLength_eq, unpaddedLength_table]
    exact ⟨hbits, rfl⟩

/-- The stream with its header written out (30_encoding.md R120, R121). -/
theorem tableStream_written_out (table : List (Byte × Bits)) (syms : List Byte) :
    tableStream table syms =
      bitsOf 3 (paddingBits (headerLength table + (encodePayload table syms).length)) ++ bitsOf 7 table.length ++
        ones (codeDepth table) ++ table.flatMap (headerEntry (codeDepth table)) ++ encodePayload table syms ++
        zeros (paddingBits (headerLength table + (encodePayload table syms).length)) := by
  rw [tableStream_eq, serializeHeader]
  simp only [List.append_assoc]

/-- Settles O48: the stream of the code table, with its header written out. -/
theorem encodedBytesFollowTheWireFormat : Obligations.EncodedBytesFollowTheWireFormat := by
  unfold Obligations.EncodedBytesFollowTheWireFormat
  intro maxOut chars r h
  obtain ⟨t, hfull, hperm, hlt, hbits, hr⟩ := encodeChars_ok h
  obtain ⟨hfree, hpos, ⟨s₀, k, more, hfirst⟩, -⟩ := codeTable_spec hfull
  obtain ⟨-, hdepth, -⟩ := encodeTable_bounds hfull hperm hlt
  rw [hr]
  refine ⟨codeTable t, s₀, k, more, hfree, hperm, hfirst, fun p hp => ⟨hpos p hp, codeDepth_ge hp⟩,
    codeDepth_attained (by simp [hfirst]), hdepth, rfl, rfl, rfl, ?_⟩
  exact hbits.trans (tableStream_written_out _ _)

/-- The longest stream of an alphabet of 127 symbols (00_scope.md R13). -/
theorem tableStream_length_le {table : List (Byte × Bits)} (syms : List Byte) (hcount : table.length ≤ 127)
    (hdepth : codeDepth table ≤ 126) : (tableStream table syms).length ≤ 17154 + 126 * syms.length + 7 := by
  obtain ⟨hpad, -⟩ := paddingBits_spec (headerLength table + (encodePayload table syms).length)
  have hentries : table.length * (codeDepth table + 8) ≤ 127 * 134 := Nat.mul_le_mul hcount (by omega)
  have hpay := encodePayload_length_le table syms 126 fun s _ => (codeOf_length_le table s).trans hdepth
  rw [tableStream, streamBits_length, unpaddedLength_table]
  rw [headerLength] at hpad ⊢
  omega

/-- The stream of a valid input (41_frequency_analyzer.md R208, 00_scope.md R13). -/
theorem encodeStream_length_le {chars : List Word} (hv : ValidChars chars) :
    (tableStream (codeTable (build (freqTable (chars.map symbolOf)))) (chars.map symbolOf)).length ≤
      17154 + 126 * chars.length + 7 := by
  have ⟨_, _, hlt⟩ := hv
  obtain ⟨hfull, hperm, -⟩ := encodeChars_valid 0 hv
  obtain ⟨hcount, hdepth, -⟩ := encodeTable_bounds hfull hperm hlt
  simpa using tableStream_length_le (chars.map symbolOf) hcount hdepth

/-- The operation just accepted takes its engine step next when the host has nothing left to do (log 2). -/
theorem step_accept (op : Op) {s : State} (hp : s.pending = []) :
    step (accept op s) = .next (engineStep op (accept op s)) :=
  step_engine (accept_engine s op) (.inl hp)

/-- Acceptance leaves what the result depends on (48_commands.md R351, R361). -/
theorem engineResult_accept (op : Op) (s : State) : engineResult op (accept op s) = engineResult op s :=
  engineResult_congr op rfl rfl fun _ _ => rfl

/-- Settles O57: a valid input passes every stage in front of PACK, and PACK decides the end. -/
theorem encodeRunsToSuccess : Obligations.EncodeRunsToSuccess := by
  unfold Obligations.EncodeRunsToSuccess
  intro s hb hp hin hv syms table stream
  obtain ⟨-, -, hsyms⟩ := encodeChars_valid s.params.maxOut hv
  have hresult : engineResult .encode (accept .encode s) =
      encodeSymbols s.params.maxOut syms (build (freqTable syms)) :=
    (engineResult_accept .encode s).trans ((engineResult_encode hin).trans hsyms)
  have hbound := encodeStream_length_le hv
  rw [inputChars_length] at hbound
  refine ⟨hbound, accept .encode s, engineStep .encode (accept .encode s),
    exec_encode_idle hb, accept_accepted .encode s, step_accept .encode hp, fun hfit => ?_, fun hover => ?_⟩
  · rcases encodeSymbols_cases s.params.maxOut syms (build (freqTable syms)) with
      ⟨hover, -⟩ | ⟨-, out, hok, hlen, hbits⟩
    · exact absurd hover (Nat.not_lt.mpr hfit)
    · refine ⟨_, hsyms.trans hok, hlen, hbits, ?_⟩
      rw [engineStep_ok (hresult.trans hok)]
      exact finish_succeeded _ _
  · rcases encodeSymbols_cases s.params.maxOut syms (build (freqTable syms)) with ⟨-, herr⟩ | ⟨hfit, -⟩
    · rw [← errCodeWord_outputOverflow]
      exact engineStep_failed_raiseAt (by decide) (hresult.trans herr)
    · exact absurd hover (Nat.not_lt.mpr hfit)

/-! ### DECODE -/

/-- Settles O58: the header and the tree are read back, and the walk emits the symbols. -/
theorem decodeRunsToSuccess : Obligations.DecodeRunsToSuccess := by
  unfold Obligations.DecodeRunsToSuccess
  intro s tree syms hb hp hin hfull table depth pay hdrLength hn hcount hdepth hs hfit hbits
  have hok := decodeBytes_tableStream hfull hn hcount hdepth hs hfit hbits
  have hresult := (engineResult_accept .decode s).trans ((engineResult_decode hin).trans hok)
  refine ⟨accept .decode s, engineStep .decode (accept .decode s), exec_decode_idle hb, accept_accepted .decode s,
    step_accept .decode hp, ?_⟩
  rw [engineStep_ok hresult]
  exact finish_succeeded (streamSuccess table syms syms) _

/-! ### The round trip -/

/-- A success is the end of an operation without an error (48_commands.md R360). -/
theorem exists_ok_of_err_false {op : Op} {s : State} (h : (engineStep op s).err = false) :
    ∃ r, engineResult op s = .ok r ∧ engineStep op s = finish r s := by
  rcases engineStep_cases op s with hok | ⟨x, -, hx⟩
  · exact hok
  · simp [hx] at h

theorem finish_outByte_of_lt (s : State) {r : Success} {i : Nat} (h : i < r.out.length) :
    (finish r s).outByte i = r.out[i] := by
  obtain ⟨-, -, -, -, -, -, hbyte⟩ := finish_succeeded r s
  rw [hbyte, dif_pos h]

/-- The bytes of DECODE, where its entries hold them in their low bits (46_bitstream_packer.md R315). -/
theorem inputBytes_eq {s : State} {bytes : List Byte} (hlen : s.inLen.toNat = bytes.length)
    (h : ∀ (k : Nat) (hk : k < bytes.length), (s.inEntry k).extractLsb' 0 8 = bytes[k]) : inputBytes s = bytes := by
  refine List.ext_getElem (by rw [inputBytes_length, hlen]) fun k hk hk' => ?_
  simpa [inputBytes, inputChars] using h k hk'

/-- The symbol of a character is its low byte (41_frequency_analyzer.md R203). -/
theorem symbolOf_eq_extractLsb' (ch : Word) : symbolOf ch = ch.extractLsb' 0 8 := by
  refine BitVec.eq_of_toNat_eq ?_
  simp [symbolOf]

/-- Settles O59: ENCODE's bytes are a stream of the input's symbols, which DECODE reads back. -/
theorem decodeInvertsEncode : Obligations.DecodeInvertsEncode := by
  unfold Obligations.DecodeInvertsEncode
  intro s t hlegal hparams u herr htlen hin hfit hcopy v
  obtain ⟨r, hr, hu⟩ : ∃ r, engineResult .encode s = .ok r ∧ u = finish r s := exists_ok_of_err_false herr
  clear_value u
  subst hu
  obtain ⟨hsin, -, -, -, hrlen, -⟩ := engineResult_ok hr
  rw [engineResult_encode hsin] at hr
  obtain ⟨tree, hfull, hperm, hlt, hbits, hrval⟩ := encodeChars_ok hr
  obtain ⟨hcount, hdepth, -, hn, hmem⟩ := encodeTable_bounds hfull hperm hlt
  obtain ⟨-, ⟨-, hmaxOut⟩, -⟩ := hlegal
  have hulen : (finish r s).outLen.toNat = r.out.length := by
    rw [finish_outLen, BitVec.toNat_ofNat, Nat.mod_eq_of_lt (by omega)]
  have hbytes : inputBytes t = r.out := inputBytes_eq (by rw [htlen, hulen]) fun k hk => by
    rw [hcopy k (by omega), finish_outByte_of_lt s hk]
  have hsyms : ((inputChars s).map symbolOf).length = s.inLen.toNat := by simp
  have hdecode := decodeBytes_tableStream (maxOut := t.params.maxOut) hfull hn hcount (by omega) hmem
    (by rwa [hsyms]) hbits
  have hv : v = finish _ t := engineStep_ok ((engineResult_decode (by rwa [htlen])).trans (hbytes ▸ hdecode))
  rw [hv, hrval]
  refine ⟨finish_done _ _, finish_err _ _, ?_, fun k hk => ?_, rfl, rfl, rfl, rfl, rfl⟩
  · rw [finish_outLen, streamSuccess, hsyms]
    simp
  · rw [finish_outByte_of_lt t (by rwa [streamSuccess, hsyms]), ← symbolOf_eq_extractLsb']
    simp [inputChars, streamSuccess]

/-! ### The default build -/

/-- A walk that overflows has read a bit per symbol emitted and one bit more (47_payload_codec.md R337, R338). -/
theorem lt_of_walk_overflow {root node : Tree} {maxOut k : Nat} {bits : Bits} {x : Raise} (hk : k ≤ maxOut)
    (h : walk root maxOut bits node k = .error x) (hx : x.error = .outputOverflow) : maxOut < k + bits.length := by
  induction bits generalizing node k with
  | nil =>
    rw [walk] at h
    split at h
    · cases h
    · cases h
      simp [raiseAt] at hx
  | cons b bits ih =>
    rw [walk] at h
    rw [List.length_cons]
    split at h
    · cases h
      simp [raiseAt] at hx
    · split at h
      · omega
      · split at h
        · rename_i hrest
          cases h
          have := ih (by omega) hrest
          omega
        · cases h
    · have := ih hk h
      omega

/-- DECODE overflows only with more data bits than MAX_OUT (60_exceptions.md R416). -/
theorem lt_of_decodeBytes_overflow {maxOut : Nat} {bytes : List Byte} {x : Raise}
    (h : decodeBytes maxOut bytes = .error x) (hx : x.error = .outputOverflow) : maxOut < 8 * bytes.length := by
  unfold decodeBytes at h
  split at h
  · rename_i hparse
    cases h
    rcases parseHeader_error hparse with rfl | rfl <;> simp [raiseAt] at hx
  · unfold decodeParsed at h
    split at h
    · rename_i hrecon
      cases h
      rw [collapse_error hrecon] at hx
      simp [raiseAt] at hx
    · split at h
      · rename_i hwalk
        cases h
        have hlt := lt_of_walk_overflow (Nat.zero_le _) hwalk hx
        rw [slice_length, unpack_length] at hlt
        omega
      · cases h

/-- ENCODE overflows only with a longer stream than OUT_MEM (60_exceptions.md R416). -/
theorem lt_of_encodeChars_overflow {maxOut : Nat} {chars : List Word} {x : Raise}
    (h : encodeChars maxOut chars = .error x) (hx : x.error = .outputOverflow) :
    maxOut < (17154 + 126 * chars.length + 7) / 8 := by
  cases hf : freq chars with
  | error y =>
    obtain rfl : y = x := Except.error.inj ((encodeChars_of_freq_error hf).symm.trans h)
    obtain ⟨-, he | he | he⟩ := freq_error hf <;> simp [he] at hx
  | ok table =>
    have hv := (freq_ok.mp hf).1
    obtain ⟨-, -, hsyms⟩ := encodeChars_valid maxOut hv
    rw [hsyms] at h
    rcases encodeSymbols_cases maxOut (chars.map symbolOf) (build (freqTable (chars.map symbolOf))) with
      ⟨hover, -⟩ | ⟨-, out, hok, -⟩
    · exact hover.trans_le (Nat.div_le_div_right (encodeStream_length_le hv))
    · rw [hok] at h
      cases h

/-- Settles O60: the longest stream of MAX_IN characters, and the bits of MAX_IN bytes, fit the default MAX_OUT. -/
theorem defaultBuildNeverOverflows : Obligations.DefaultBuildNeverOverflows := by
  unfold Obligations.DefaultBuildNeverOverflows
  intro op s x hparams h hx
  have hmaxIn : s.params.maxIn = 65536 := by rw [hparams]; rfl
  have hmaxOut : s.params.maxOut = 1048576 := by rw [hparams]; rfl
  by_cases hin : s.params.maxIn < s.inLen.toNat
  · rw [engineResult_of_lt op hin] at h
    cases h
    simp [raiseAt] at hx
  rw [Nat.not_lt] at hin
  cases op with
  | encode =>
    rw [engineResult_encode hin] at h
    have hlt := lt_of_encodeChars_overflow h hx
    rw [inputChars_length] at hlt
    omega
  | decode =>
    rw [engineResult_decode hin] at h
    have hlt := lt_of_decodeBytes_overflow h hx
    rw [inputBytes_length] at hlt
    omega

end Sys2Proof.Machine
end
